-- ==== Sys2Proof/Word.lean ====
section
/-! DEFINITION. The word types of the machine. Every register and every memory byte holds an unsigned
integer and nothing is ever sign-extended (00_scope.md R6). -/

namespace Sys2Proof

/-- A V register, a timer, `sp`, a memory byte, the random byte: 8 bits (00_scope.md R4, R7). -/
abbrev Byte := BitVec 8

/-- `I`, `pc`, a stack slot, an instruction, the keypad snapshot: 16 bits (00_scope.md R4, R7). -/
abbrev Word := BitVec 16

/-- The number of a general register, 0 to 15 (10_state.md R24). -/
abbrev RegNum := Fin 16

end Sys2Proof
end

