-- ==== Sys2Proof/Syntax.lean ====
section
/-! DEFINITION. The instructions: one constructor per row of spec/opcode_table.json, in the table's order
(30_encoding.md R76). Operands carry their field's width (30_encoding.md R71, R73): `x` and `y` are register
numbers, `nn` an 8-bit immediate, `nnn` a 12-bit immediate, `n` a row count. -/

namespace Sys2Proof

inductive Instr where
  /-- `00E0` (CLS): clear framebuffer, set drawFlag (46_display.md R170). -/
  | cls
  /-- `00EE` (RET): pop pc (41_flow.md R103). -/
  | ret
  /-- `1nnn` (JP nnn): pc = nnn (41_flow.md R100). -/
  | jp (nnn : BitVec 12)
  /-- `2nnn` (CALL nnn): push pc+2, pc = nnn (41_flow.md R101). -/
  | call (nnn : BitVec 12)
  /-- `3xnn` (SE Vx, nn): skip if Vx == nn (42_skip.md R111). -/
  | seImm (x : RegNum) (nn : Byte)
  /-- `4xnn` (SNE Vx, nn): skip if Vx != nn (42_skip.md R112). -/
  | sneImm (x : RegNum) (nn : Byte)
  /-- `5xy0` (SE Vx, Vy): skip if Vx == Vy (42_skip.md R113). -/
  | seReg (x : RegNum) (y : RegNum)
  /-- `6xnn` (LD Vx, nn): Vx = nn (43_immediate.md R120). -/
  | ldImm (x : RegNum) (nn : Byte)
  /-- `7xnn` (ADD Vx, nn): Vx = Vx + nn mod 256, no flag (43_immediate.md R121). -/
  | addImm (x : RegNum) (nn : Byte)
  /-- `8xy0` (LD Vx, Vy): Vx = Vy (44_alu.md R132). -/
  | ldReg (x : RegNum) (y : RegNum)
  /-- `8xy1` (OR Vx, Vy): Vx = Vx OR Vy (44_alu.md R133). -/
  | orReg (x : RegNum) (y : RegNum)
  /-- `8xy2` (AND Vx, Vy): Vx = Vx AND Vy (44_alu.md R134). -/
  | andReg (x : RegNum) (y : RegNum)
  /-- `8xy3` (XOR Vx, Vy): Vx = Vx XOR Vy (44_alu.md R135). -/
  | xorReg (x : RegNum) (y : RegNum)
  /-- `8xy4` (ADD Vx, Vy): Vx = Vx + Vy mod 256, VF = carry (44_alu.md R136). -/
  | addReg (x : RegNum) (y : RegNum)
  /-- `8xy5` (SUB Vx, Vy): Vx = Vx - Vy mod 256, VF = not borrow (44_alu.md R137). -/
  | subReg (x : RegNum) (y : RegNum)
  /-- `8xy6` (SHR Vx): Vx = Vx >> 1, VF = bit shifted out (44_alu.md R138). The field y is ignored (R77). -/
  | shr (x : RegNum) (y : RegNum)
  /-- `8xy7` (SUBN Vx, Vy): Vx = Vy - Vx mod 256, VF = not borrow (44_alu.md R139). -/
  | subn (x : RegNum) (y : RegNum)
  /-- `8xyE` (SHL Vx): Vx = Vx << 1 mod 256, VF = bit shifted out (44_alu.md R140). The field y is ignored (R77). -/
  | shl (x : RegNum) (y : RegNum)
  /-- `9xy0` (SNE Vx, Vy): skip if Vx != Vy (42_skip.md R114). -/
  | sneReg (x : RegNum) (y : RegNum)
  /-- `Annn` (LD I, nnn): I = nnn (45_index_memory.md R150). -/
  | ldI (nnn : BitVec 12)
  /-- `Bnnn` (JP V0, nnn): pc = V0 + nnn (41_flow.md R102). -/
  | jpV0 (nnn : BitVec 12)
  /-- `Cxnn` (RND Vx, nn): Vx = random byte AND nn (43_immediate.md R122). -/
  | rnd (x : RegNum) (nn : Byte)
  /-- `Dxyn` (DRW Vx, Vy, n): XOR-draw n-row sprite, VF = collision (46_display.md R171). -/
  | drw (x : RegNum) (y : RegNum) (n : BitVec 4)
  /-- `Ex9E` (SKP Vx): skip if key Vx pressed (47_keypad.md R181). -/
  | skp (x : RegNum)
  /-- `ExA1` (SKNP Vx): skip if key Vx not pressed (47_keypad.md R182). -/
  | sknp (x : RegNum)
  /-- `Fx07` (LD Vx, DT): Vx = delayTimer (48_timer_instr.md R190). -/
  | ldVxDT (x : RegNum)
  /-- `Fx0A` (LD Vx, K): wait for a key, Vx = its index (47_keypad.md R183). -/
  | ldVxK (x : RegNum)
  /-- `Fx15` (LD DT, Vx): delayTimer = Vx (48_timer_instr.md R191). -/
  | ldDTVx (x : RegNum)
  /-- `Fx18` (LD ST, Vx): soundTimer = Vx (48_timer_instr.md R192). -/
  | ldSTVx (x : RegNum)
  /-- `Fx1E` (ADD I, Vx): I = I + Vx mod 65536 (45_index_memory.md R151). -/
  | addI (x : RegNum)
  /-- `Fx29` (LD F, Vx): I = 5 * Vx (45_index_memory.md R152). -/
  | ldF (x : RegNum)
  /-- `Fx33` (LD B, Vx): store BCD of Vx at I, I+1, I+2 (45_index_memory.md R153). -/
  | ldB (x : RegNum)
  /-- `Fx55` (LD [I], Vx): store V0..Vx at I.., I += x+1 (45_index_memory.md R155). -/
  | storeRegs (x : RegNum)
  /-- `Fx65` (LD Vx, [I]): load V0..Vx from I.., I += x+1 (45_index_memory.md R156). -/
  | loadRegs (x : RegNum)
  deriving DecidableEq, Repr

/-- The row of spec/opcode_table.json an instruction belongs to, by the table's own mnemonic. -/
def Instr.mnemonic : Instr → String
  | .cls => "CLS"
  | .ret => "RET"
  | .jp _ => "JP_nnn"
  | .call _ => "CALL_nnn"
  | .seImm _ _ => "SE_Vx__nn"
  | .sneImm _ _ => "SNE_Vx__nn"
  | .seReg _ _ => "SE_Vx__Vy"
  | .ldImm _ _ => "LD_Vx__nn"
  | .addImm _ _ => "ADD_Vx__nn"
  | .ldReg _ _ => "LD_Vx__Vy"
  | .orReg _ _ => "OR_Vx__Vy"
  | .andReg _ _ => "AND_Vx__Vy"
  | .xorReg _ _ => "XOR_Vx__Vy"
  | .addReg _ _ => "ADD_Vx__Vy"
  | .subReg _ _ => "SUB_Vx__Vy"
  | .shr _ _ => "SHR_Vx"
  | .subn _ _ => "SUBN_Vx__Vy"
  | .shl _ _ => "SHL_Vx"
  | .sneReg _ _ => "SNE_Vx__Vy"
  | .ldI _ => "LD_I__nnn"
  | .jpV0 _ => "JP_V0__nnn"
  | .rnd _ _ => "RND_Vx__nn"
  | .drw _ _ _ => "DRW_Vx__Vy__n"
  | .skp _ => "SKP_Vx"
  | .sknp _ => "SKNP_Vx"
  | .ldVxDT _ => "LD_Vx__DT"
  | .ldVxK _ => "LD_Vx__K"
  | .ldDTVx _ => "LD_DT__Vx"
  | .ldSTVx _ => "LD_ST__Vx"
  | .addI _ => "ADD_I__Vx"
  | .ldF _ => "LD_F__Vx"
  | .ldB _ => "LD_B__Vx"
  | .storeRegs _ => "LD__I___Vx"
  | .loadRegs _ => "LD_Vx___I"

end Sys2Proof
end

