-- ==== Sys2Proof/WellFormed.lean ====
section
/-! DEFINITION. Which instruction words are well formed: the opcode table as masks and values
(30_encoding.md R76), read independently of the decoder. A term of `Instr` is always an instruction, because its
operands have exactly the widths of their fields and no field has reserved values (30_encoding.md R77), so
well-formedness is a question about words: the fixed digits of group 0 (the whole word), of groups 5, 8 and 9
(the low nibble) and of groups E and F (the low byte) are the checks. -/

namespace Sys2Proof

/-- One row of the opcode table: a word `w` is this row's exactly when `w &&& mask = value` (30_encoding.md R76). -/
structure OpcodeRow where
  mnemonic : String
  mask : Word
  value : Word
  deriving DecidableEq, Repr

def OpcodeRow.accepts (r : OpcodeRow) (w : Word) : Bool := w &&& r.mask == r.value

/-- The 34 rows of 30_encoding.md R76, the first half. -/
def opcodeRowsLow : List OpcodeRow :=
  [⟨"CLS", 0xFFFF, 0x00E0⟩,
   ⟨"RET", 0xFFFF, 0x00EE⟩,
   ⟨"JP_nnn", 0xF000, 0x1000⟩,
   ⟨"CALL_nnn", 0xF000, 0x2000⟩,
   ⟨"SE_Vx__nn", 0xF000, 0x3000⟩,
   ⟨"SNE_Vx__nn", 0xF000, 0x4000⟩] ++
  [⟨"SE_Vx__Vy", 0xF00F, 0x5000⟩,
   ⟨"LD_Vx__nn", 0xF000, 0x6000⟩,
   ⟨"ADD_Vx__nn", 0xF000, 0x7000⟩,
   ⟨"LD_Vx__Vy", 0xF00F, 0x8000⟩,
   ⟨"OR_Vx__Vy", 0xF00F, 0x8001⟩,
   ⟨"AND_Vx__Vy", 0xF00F, 0x8002⟩] ++
  [⟨"XOR_Vx__Vy", 0xF00F, 0x8003⟩,
   ⟨"ADD_Vx__Vy", 0xF00F, 0x8004⟩,
   ⟨"SUB_Vx__Vy", 0xF00F, 0x8005⟩,
   ⟨"SHR_Vx", 0xF00F, 0x8006⟩,
   ⟨"SUBN_Vx__Vy", 0xF00F, 0x8007⟩,
   ⟨"SHL_Vx", 0xF00F, 0x800E⟩]

/-- The second half. -/
def opcodeRowsHigh : List OpcodeRow :=
  [⟨"SNE_Vx__Vy", 0xF00F, 0x9000⟩,
   ⟨"LD_I__nnn", 0xF000, 0xA000⟩,
   ⟨"JP_V0__nnn", 0xF000, 0xB000⟩,
   ⟨"RND_Vx__nn", 0xF000, 0xC000⟩,
   ⟨"DRW_Vx__Vy__n", 0xF000, 0xD000⟩,
   ⟨"SKP_Vx", 0xF0FF, 0xE09E⟩] ++
  [⟨"SKNP_Vx", 0xF0FF, 0xE0A1⟩,
   ⟨"LD_Vx__DT", 0xF0FF, 0xF007⟩,
   ⟨"LD_Vx__K", 0xF0FF, 0xF00A⟩,
   ⟨"LD_DT__Vx", 0xF0FF, 0xF015⟩,
   ⟨"LD_ST__Vx", 0xF0FF, 0xF018⟩,
   ⟨"ADD_I__Vx", 0xF0FF, 0xF01E⟩] ++
  [⟨"LD_F__Vx", 0xF0FF, 0xF029⟩,
   ⟨"LD_B__Vx", 0xF0FF, 0xF033⟩,
   ⟨"LD__I___Vx", 0xF0FF, 0xF055⟩,
   ⟨"LD_Vx___I", 0xF0FF, 0xF065⟩]

def opcodeTable : List OpcodeRow := opcodeRowsLow ++ opcodeRowsHigh

/-- A word is well formed when it is one of the 34 instructions (30_encoding.md R76, R78; D12, log 16). -/
def wordWellFormed (w : Word) : Bool := opcodeTable.any fun r => r.accepts w

end Sys2Proof
end

