-- ==== Sys2Proof/Decode.lean ====
section
/-! DEFINITION. Decoding: the fields of an instruction word (30_encoding.md R71), the dispatch on the top nibble and
the secondary key (R74, R75), the byte order of an instruction in memory (20_memory.md R54), and the encoder, written
from the patterns of R76. Decoding is total, depends on the word alone, and rejects by name (R78, R80). -/

namespace Sys2Proof

/-! ### Byte order -/

/-- The byte at the lower address is the high byte (20_memory.md R54). -/
def wordOfBytes (hi lo : Byte) : Word := hi ++ lo

/-- The two bytes of a word in address order (20_memory.md R54). -/
def bytesOfWord (w : Word) : List Byte := [w.extractLsb' 8 8, w.extractLsb' 0 8]

/-! ### Fields (30_encoding.md R71, 00_scope.md R8) -/

def opField (w : Word) : BitVec 4 := w.extractLsb' 12 4
def xField (w : Word) : RegNum := (w.extractLsb' 8 4).toFin
def yField (w : Word) : RegNum := (w.extractLsb' 4 4).toFin
def nField (w : Word) : BitVec 4 := w.extractLsb' 0 4
def nnField (w : Word) : Byte := w.extractLsb' 0 8
def nnnField (w : Word) : BitVec 12 := w.extractLsb' 0 12

/-! ### Dispatch (30_encoding.md R74, R75; exact match on every fixed digit: D12, log 16) -/

/-- Group 8 selects on n. -/
def decodeAlu (w : Word) : Option Instr :=
  match (nField w).toNat with
  | 0x0 => some (.ldReg (xField w) (yField w))
  | 0x1 => some (.orReg (xField w) (yField w))
  | 0x2 => some (.andReg (xField w) (yField w))
  | 0x3 => some (.xorReg (xField w) (yField w))
  | 0x4 => some (.addReg (xField w) (yField w))
  | 0x5 => some (.subReg (xField w) (yField w))
  | 0x6 => some (.shr (xField w) (yField w))
  | 0x7 => some (.subn (xField w) (yField w))
  | 0xE => some (.shl (xField w) (yField w))
  | _ => none

/-- Group E selects on nn. -/
def decodeKey (w : Word) : Option Instr :=
  match (nnField w).toNat with
  | 0x9E => some (.skp (xField w))
  | 0xA1 => some (.sknp (xField w))
  | _ => none

/-- Group F selects on nn. -/
def decodeMisc (w : Word) : Option Instr :=
  match (nnField w).toNat with
  | 0x07 => some (.ldVxDT (xField w))
  | 0x0A => some (.ldVxK (xField w))
  | 0x15 => some (.ldDTVx (xField w))
  | 0x18 => some (.ldSTVx (xField w))
  | 0x1E => some (.addI (xField w))
  | 0x29 => some (.ldF (xField w))
  | 0x33 => some (.ldB (xField w))
  | 0x55 => some (.storeRegs (xField w))
  | 0x65 => some (.loadRegs (xField w))
  | _ => none

/-- The instruction a word is, or `none` where it is one of the illegal words of 30_encoding.md R78. -/
def decodeWord (w : Word) : Option Instr :=
  match (opField w).toNat with
  | 0x0 => if w = 0x00E0#16 then some .cls else if w = 0x00EE#16 then some .ret else none
  | 0x1 => some (.jp (nnnField w))
  | 0x2 => some (.call (nnnField w))
  | 0x3 => some (.seImm (xField w) (nnField w))
  | 0x4 => some (.sneImm (xField w) (nnField w))
  | 0x5 => if nField w = 0#4 then some (.seReg (xField w) (yField w)) else none
  | 0x6 => some (.ldImm (xField w) (nnField w))
  | 0x7 => some (.addImm (xField w) (nnField w))
  | 0x8 => decodeAlu w
  | 0x9 => if nField w = 0#4 then some (.sneReg (xField w) (yField w)) else none
  | 0xA => some (.ldI (nnnField w))
  | 0xB => some (.jpV0 (nnnField w))
  | 0xC => some (.rnd (xField w) (nnField w))
  | 0xD => some (.drw (xField w) (yField w) (nField w))
  | 0xE => decodeKey w
  | 0xF => decodeMisc w
  | _ => none

/-- Why bytes hold no instruction. -/
inductive DecodeError where
  /-- The word matches no row of the opcode table (30_encoding.md R78). -/
  | unknownOpcode (word : Word)
  /-- Fewer than two bytes: every instruction is exactly two (30_encoding.md R70). -/
  | truncated
  deriving DecidableEq, Repr

/-- Decode the instruction at the head of a byte sequence in address order, and give the rest. -/
def decode : List Byte → Except DecodeError (Instr × List Byte)
  | hi :: lo :: rest =>
    match decodeWord (wordOfBytes hi lo) with
    | some i => .ok (i, rest)
    | none => .error (.unknownOpcode (wordOfBytes hi lo))
  | _ => .error .truncated

/-! ### The encoder (30_encoding.md R72, R76) -/

/-- The four bits of a register number. -/
def regBits (r : RegNum) : BitVec 4 := BitVec.ofFin r

/-- The word of an instruction, digit by digit from its pattern. -/
def encode : Instr → Word
  | .cls => 0x00E0#16
  | .ret => 0x00EE#16
  | .jp nnn => 0x1#4 ++ nnn
  | .call nnn => 0x2#4 ++ nnn
  | .seImm x nn => 0x3#4 ++ regBits x ++ nn
  | .sneImm x nn => 0x4#4 ++ regBits x ++ nn
  | .seReg x y => 0x5#4 ++ regBits x ++ regBits y ++ 0x0#4
  | .ldImm x nn => 0x6#4 ++ regBits x ++ nn
  | .addImm x nn => 0x7#4 ++ regBits x ++ nn
  | .ldReg x y => 0x8#4 ++ regBits x ++ regBits y ++ 0x0#4
  | .orReg x y => 0x8#4 ++ regBits x ++ regBits y ++ 0x1#4
  | .andReg x y => 0x8#4 ++ regBits x ++ regBits y ++ 0x2#4
  | .xorReg x y => 0x8#4 ++ regBits x ++ regBits y ++ 0x3#4
  | .addReg x y => 0x8#4 ++ regBits x ++ regBits y ++ 0x4#4
  | .subReg x y => 0x8#4 ++ regBits x ++ regBits y ++ 0x5#4
  | .shr x y => 0x8#4 ++ regBits x ++ regBits y ++ 0x6#4
  | .subn x y => 0x8#4 ++ regBits x ++ regBits y ++ 0x7#4
  | .shl x y => 0x8#4 ++ regBits x ++ regBits y ++ 0xE#4
  | .sneReg x y => 0x9#4 ++ regBits x ++ regBits y ++ 0x0#4
  | .ldI nnn => 0xA#4 ++ nnn
  | .jpV0 nnn => 0xB#4 ++ nnn
  | .rnd x nn => 0xC#4 ++ regBits x ++ nn
  | .drw x y n => 0xD#4 ++ regBits x ++ regBits y ++ n
  | .skp x => 0xE#4 ++ regBits x ++ 0x9E#8
  | .sknp x => 0xE#4 ++ regBits x ++ 0xA1#8
  | .ldVxDT x => 0xF#4 ++ regBits x ++ 0x07#8
  | .ldVxK x => 0xF#4 ++ regBits x ++ 0x0A#8
  | .ldDTVx x => 0xF#4 ++ regBits x ++ 0x15#8
  | .ldSTVx x => 0xF#4 ++ regBits x ++ 0x18#8
  | .addI x => 0xF#4 ++ regBits x ++ 0x1E#8
  | .ldF x => 0xF#4 ++ regBits x ++ 0x29#8
  | .ldB x => 0xF#4 ++ regBits x ++ 0x33#8
  | .storeRegs x => 0xF#4 ++ regBits x ++ 0x55#8
  | .loadRegs x => 0xF#4 ++ regBits x ++ 0x65#8

/-- The bytes of an instruction in address order (20_memory.md R54). -/
def encodeBytes (i : Instr) : List Byte := bytesOfWord (encode i)

/-! ### The table's numbering -/

/-- The instruction the decoder reads from an instruction whose bits, numbered as spec/opcode_table.json numbers them,
are `w`: one 16-bit word (30_encoding.md R70), laid out high byte first and given to `decode`; bits at and above
`nbits` are 0. -/
def decodeTableWord (nbits w : Nat) : Option Instr :=
  match decode (bytesOfWord (BitVec.ofNat 16 (w % 2 ^ nbits))) with
  | .ok (i, _) => some i
  | .error _ => none

end Sys2Proof
end

