-- ==== Sys2Proof/Config.lean ====
section
/-! DEFINITION. The parameters of the block in one record (00_scope.md R4), with every alternative that
92_eei_decisions.md names for its open parameters, and the free values: what the environment chooses
without any law (93_implementation_defined.md U5, U20, U21). Widths and array sizes are in the types of
State and not repeated here. -/

namespace Sys2Proof

/-- DRAW_OOB_RULE: which sprite pixels are held against the framebuffer bounds (46_display.md R173, D5). -/
inductive DrawOobRule where
  /-- Only positions whose sprite bit is 1. -/
  | setBitsOnly
  /-- Every position of the 8 by n rectangle. -/
  | wholeRectangle
  deriving DecidableEq, Repr

/-- KEY_SELECT: which key Fx0A reports when several are pressed (47_keypad.md R183, D8). -/
inductive KeySelect where
  | lowestIndex
  /-- Any pressed key: the one at position `pick` (modulo their number) among the pressed, in ascending order. -/
  | anyPressed (pick : Nat)
  deriving DecidableEq, Repr

/-- SHIFT_SOURCE: which register 8xy6 and 8xyE shift (44_alu.md R138, D9). -/
inductive ShiftSource where
  | vx
  | vy
  deriving DecidableEq, Repr

/-- The parameters of 00_scope.md R4 that are not widths. -/
structure Params where
  /-- MEM_SIZE -/
  memSize : Nat
  /-- PROG_BASE: where `load` copies to, and the reset value of pc. -/
  progBase : Nat
  /-- MAX_PROG: the largest program `load` accepts. -/
  maxProg : Nat
  /-- GLYPH_LEN: bytes per glyph, the multiplier of Fx29. -/
  glyphLen : Nat
  /-- FONT: the bytes that stand from FONT_BASE = 0x000 after reset (10_state.md R23, D13). -/
  font : List Byte
  drawOobRule : DrawOobRule
  keySelect : KeySelect
  shiftSource : ShiftSource
  deriving DecidableEq, Repr

namespace Config

/-- Glyphs 0 to 7 of the font (10_state.md R23; UNVERIFIED, log 8). -/
def fontLow : List Byte :=
  [0xF0, 0x90, 0x90, 0x90, 0xF0] ++ [0x20, 0x60, 0x20, 0x20, 0x70] ++
  [0xF0, 0x10, 0xF0, 0x80, 0xF0] ++ [0xF0, 0x10, 0xF0, 0x10, 0xF0] ++
  [0x90, 0x90, 0xF0, 0x10, 0x10] ++ [0xF0, 0x80, 0xF0, 0x10, 0xF0] ++
  [0xF0, 0x80, 0xF0, 0x90, 0xF0] ++ [0xF0, 0x10, 0x20, 0x40, 0x40]

/-- Glyphs 8 to F of the font (10_state.md R23; UNVERIFIED, log 8). -/
def fontHigh : List Byte :=
  [0xF0, 0x90, 0xF0, 0x90, 0xF0] ++ [0xF0, 0x90, 0xF0, 0x10, 0xF0] ++
  [0xF0, 0x90, 0xF0, 0x90, 0x90] ++ [0xE0, 0x90, 0xE0, 0x90, 0xE0] ++
  [0xF0, 0x80, 0x80, 0x80, 0xF0] ++ [0xE0, 0x90, 0x90, 0x90, 0xE0] ++
  [0xF0, 0x80, 0xF0, 0x80, 0xF0] ++ [0xF0, 0x80, 0xF0, 0x80, 0x80]

/-- The values this hardware takes (00_scope.md R4). UNVERIFIED: the last three are the spec's own
decisions on points its source leaves open (logs 9, 10, 11). -/
@[reducible] def hw : Params where
  memSize := 4096
  progBase := 0x200
  maxProg := 3584
  glyphLen := 5
  font := fontLow ++ fontHigh
  drawOobRule := .setBitsOnly
  keySelect := .lowestIndex
  shiftSource := .vx

@[simp] theorem hw_memSize : hw.memSize = 4096 := rfl
@[simp] theorem hw_progBase : hw.progBase = 0x200 := rfl
@[simp] theorem hw_maxProg : hw.maxProg = 3584 := rfl
@[simp] theorem hw_glyphLen : hw.glyphLen = 5 := rfl
@[simp] theorem hw_drawOobRule : hw.drawOobRule = .setBitsOnly := rfl
@[simp] theorem hw_keySelect : hw.keySelect = .lowestIndex := rfl
@[simp] theorem hw_shiftSource : hw.shiftSource = .vx := rfl

/-- Free value: the keys pressed at the n-th free entry of the environment (10_state.md R33, D26; log 2). -/
opaque freeKeys : Nat → Word

/-- Free value: the random byte presented at the n-th free entry (43_immediate.md R122, D16; log 2). -/
opaque freeRnd : Nat → Byte

/-- Free value: how many ticks run in the n-th free entry (60_exceptions.md R216, D21; log 2). -/
opaque freeTicks : Nat → Nat

/-- Free value: whether the environment takes the draw flag in the n-th free entry (60_exceptions.md R223; log 2). -/
opaque freeTake : Nat → Bool

end Config

end Sys2Proof
end

