-- ==== Sys2Proof/Machine/State.lean ====
section
/-! DEFINITION. The state of the block (10_state.md R20), the reasons a step stops, and the reset state (R36). -/

namespace Sys2Proof.Machine

/-- Memory: the cells that differ from the reset content, addresses strictly rising (10_state.md R21; log 7).
What an unlisted address reads as is `Memory.unlisted` in Machine/Ops.lean. -/
abbrev Memory := List Host.Cell

/-- 32 rows of 64 one-bit pixels, row 0 at the top and column 0 at the left (10_state.md R32; D14, log 12). -/
abbrev Framebuffer := Vector (Vector Bool 64) 32

/-- What the environment does before one step: how many ticks it runs, whether it takes the draw flag, and the keypad
snapshot and random byte it presents with the step (60_exceptions.md R216, R221, R223, R225; log 2). -/
structure EnvEntry where
  ticks : Nat
  take : Bool
  keys : Word
  rnd : Byte
  deriving DecidableEq, Repr

/-- The whole state. The components are those of 10_state.md R20; `rnd` is the second input of `step`
(43_immediate.md R122); `pending` and `drawn` are the model's own, for the environment (log 2). -/
structure State where
  /-- R21: 4096 bytes. -/
  memory : Memory
  /-- R24: V[0x0] to V[0xF]. -/
  V : Vector Byte 16
  /-- R26: the index register. -/
  I : Word
  /-- R27: the program counter. -/
  pc : Word
  /-- R28: the 16 return-address slots. -/
  stack : Vector Word 16
  /-- R29: the next free slot, 0 to 16. -/
  sp : Byte
  /-- R30 -/
  delayTimer : Byte
  /-- R31 -/
  soundTimer : Byte
  /-- R32 -/
  framebuffer : Framebuffer
  /-- R34 -/
  drawFlag : Bool
  /-- R33: the keypad snapshot of this step, bit k set when key k is pressed: an input (log 1). -/
  keys : Word
  /-- R122, R225: the random byte of this step: an input (log 1). -/
  rnd : Byte
  /-- The model's own: environment entries still to come, the next one first (log 2). -/
  pending : List EnvEntry
  /-- The model's own: how many free environment entries have been consumed (log 2). -/
  drawn : Nat
  deriving DecidableEq, Repr

/-- What an out-of-range memory access was for (60_exceptions.md R201, code 4). -/
inductive AccessKind where
  | fetch
  | data
  deriving DecidableEq, Repr

/-- The faults of a step (60_exceptions.md R201). A fault changes no state (R202) and is latched nowhere (R205):
the state it leaves is the state it was raised in (log 4). -/
inductive Fault where
  /-- Code 1. Raised by any step at dispatch, when the fetched word is no instruction (40_fetch_decode.md R93). Safe:
  the spec names it. -/
  | unknownOpcode (instr pc : Word)
  /-- Code 2. Raised by 2nnn with sp = 16 (41_flow.md R101). Safe: the spec names it. -/
  | stackOverflow (pc : Word)
  /-- Code 3. Raised by 00EE with sp = 0 (41_flow.md R103). Safe: the spec names it. -/
  | stackUnderflow (pc : Word)
  /-- Code 4. Raised by the fetch with pc above 0xFFE (40_fetch_decode.md R91), and by Dxyn, Fx33, Fx55, Fx65 when the
  last address lies above 0xFFF (20_memory.md R58). Safe: the spec names it. -/
  | memoryOutOfRange (kind : AccessKind) (base : Word) (len : Nat)
  /-- Code 5. Raised by Dxyn when a pixel to be drawn lies off the screen (46_display.md R173). Safe: the spec names it. -/
  | framebufferOutOfRange (vx vy : Byte)
  /-- Code 6. Raised by Ex9E and ExA1 when Vx > 15 (47_keypad.md R180). Safe: the spec names it. -/
  | keyIndexOutOfRange (vx : Byte)
  /-- The model's own. Raised by 2nnn and 00EE in a state whose sp is above 16, which no run reaches
  (10_state.md R29, R37; log 6). Safe: the model stops. -/
  | stackPointerOutOfRange (sp : Byte)
  deriving DecidableEq, Repr

/-- The refusals of a step. -/
inductive Refusal where
  /-- Raised by exec's arm of an instruction that has no meaning yet. Safe: the model stops. -/
  | notModelled (mnemonic : String)
  deriving DecidableEq, Repr

/-- The outcome of executing an instruction. `WaitingForKey` is a `next` whose state is unchanged (47_keypad.md R183;
log 3). -/
abbrev Result := Host.Outcome State Fault Refusal

/-- The state after `reset` (10_state.md R36, 70_reset_and_hazards.md R240). Memory lists nothing: an unlisted address
reads as the reset content. DESIGN CHOICE: `keys` and `rnd`, which the spec gives no reset value (log 1), and the
model's own `pending` and `drawn` (log 2). -/
def State.reset : State where
  memory := []
  V := Vector.replicate 16 0
  I := 0
  pc := BitVec.ofNat 16 Config.hw.progBase
  stack := Vector.replicate 16 0
  sp := 0
  delayTimer := 0
  soundTimer := 0
  framebuffer := Vector.replicate 32 (Vector.replicate 64 false)
  drawFlag := true
  keys := 0
  rnd := 0
  pending := []
  drawn := 0

end Sys2Proof.Machine
end

