-- ==== Sys2Proof/Machine/Ops.lean ====
section
/-! DEFINITION. The named operations over registers, memory, stack and framebuffer, and raising a fault: everything the
meanings share. -/

namespace Sys2Proof.Machine

/-! ### Results -/

/-- Raising a fault: the step ends with it and every pending write is discarded (60_exceptions.md R202). This is the
machine's whole exception entry: nothing is saved, no mode changes, no handler is entered (R205), and there is no return
from it (R206). -/
def raise (f : Fault) : Result := .fault f

/-- The result of a step that makes its writes: `Continue` (00_scope.md R9). -/
def done (s : State) : Result := .next s

/-- The numbers of the fault kinds (60_exceptions.md R201, D2); the model's own fault has none. -/
def Fault.code : Fault → Option Nat
  | .unknownOpcode _ _ => some 1
  | .stackOverflow _ => some 2
  | .stackUnderflow _ => some 3
  | .memoryOutOfRange _ _ _ => some 4
  | .framebufferOutOfRange _ _ => some 5
  | .keyIndexOutOfRange _ => some 6
  | .stackPointerOutOfRange _ => none

/-! ### Registers (10_state.md R24 to R34) -/

/-- Read V[r]. -/
def State.getV (s : State) (r : RegNum) : Byte := s.V[r]

/-- Write V[r]. -/
def State.setV (s : State) (r : RegNum) (b : Byte) : State := { s with V := s.V.set r b }

def State.setPc (s : State) (a : Word) : State := { s with pc := a }

def State.setI (s : State) (a : Word) : State := { s with I := a }

def State.setDelay (s : State) (b : Byte) : State := { s with delayTimer := b }

def State.setSound (s : State) (b : Byte) : State := { s with soundTimer := b }

/-- Replace the framebuffer and set drawFlag: every completed clear and draw does both (10_state.md R34; log 24). -/
def State.setScreen (s : State) (fb : Framebuffer) : State := { s with framebuffer := fb, drawFlag := true }

def State.setMemory (s : State) (m : Memory) : State := { s with memory := m }

/-- All sixteen V registers at once. -/
def State.setAllV (s : State) (v : Vector Byte 16) : State := { s with V := v }

/-- VF, the flag register (10_state.md R25). -/
def flagReg : RegNum := 15

/-- `next`: pc advances past the instruction (00_scope.md R7). In states no run reaches, the sum wraps at 16 bits
(10_state.md R37; log 27). -/
def State.advance (s : State) : State := s.setPc (s.pc + 2)

/-- `skip` when the condition holds, else `next` (42_skip.md R110). -/
def State.skipIf (s : State) (c : Bool) : State := s.setPc (if c then s.pc + 4 else s.pc + 2)

/-! ### Memory (20_memory.md R50 to R58) -/

/-- What an address with no listed cell reads as: the reset content, the font and then zeros (10_state.md R23, R36;
logs 7, 8). -/
def Memory.unlisted (a : Nat) : Byte := Config.hw.font.getD a 0

/-- Read one byte. -/
def Memory.read : Memory → Nat → Byte
  | [], a => Memory.unlisted a
  | (k, b) :: m, a => if k = a then b else Memory.read m a

/-- Write one byte and keep the canonical form: a cell that would hold what the address reads as anyway is not listed. -/
def Memory.write : Memory → Nat → Byte → Memory
  | [], a, b => if b = Memory.unlisted a then [] else [(a, b)]
  | (k, c) :: m, a, b =>
    if a < k then (if b = Memory.unlisted a then (k, c) :: m else (a, b) :: (k, c) :: m)
    else if a = k then (if b = Memory.unlisted a then m else (a, b) :: m)
    else (k, c) :: Memory.write m a b

/-- The canonical form above a bound: addresses at least `lo`, strictly rising, below MEM_SIZE, no cell equal to what its
address reads as unlisted. -/
def Memory.wfFrom : Nat → Memory → Bool
  | _, [] => true
  | lo, (k, b) :: m => decide (lo ≤ k) && decide (k < Config.hw.memSize) && decide (b ≠ Memory.unlisted k) && Memory.wfFrom (k + 1) m

/-- The canonical form of a memory. -/
def Memory.wf (m : Memory) : Bool := Memory.wfFrom 0 m

/-- The `n` bytes from `a` upward (20_memory.md R64). -/
def Memory.readBytes (m : Memory) (a : Nat) : Nat → List Byte
  | 0 => []
  | n + 1 => Memory.read m a :: Memory.readBytes m (a + 1) n

/-- Write bytes from `a` upward (20_memory.md R64). -/
def Memory.writeBytes (m : Memory) (a : Nat) : List Byte → Memory
  | [] => m
  | b :: bs => Memory.writeBytes (Memory.write m a b) (a + 1) bs

/-- Whether `len` bytes from `base` all exist, on unbounded integers (20_memory.md R58). No byte, no check. -/
def inMemory (base len : Nat) : Bool := len == 0 || decide (base + len ≤ Config.hw.memSize)

/-! ### The stack (10_state.md R28, R29) -/

/-- Push a return address: the slot sp indexes, then sp + 1 (41_flow.md R101). -/
def State.push (s : State) (a : Word) : State :=
  { s with stack := s.stack.setIfInBounds s.sp.toNat a, sp := s.sp + 1 }

/-- The most recent return address, in the slot below sp (41_flow.md R103). -/
def State.top (s : State) : Word := s.stack.getD (s.sp - 1).toNat 0

/-- Drop the most recent return address; the slot keeps its content (41_flow.md R103; D28, log 25). -/
def State.drop (s : State) : State := { s with sp := s.sp - 1 }

/-! ### The framebuffer (10_state.md R32) -/

/-- The pixel at row `r`, column `c`; off the screen there is none, read as 0. -/
def Framebuffer.pixel (fb : Framebuffer) (r c : Nat) : Bool :=
  if h : r < 32 ∧ c < 64 then (fb[r]'h.1)[c]'h.2 else false

/-- XOR the pixel at row `r`, column `c` with 1; off the screen nothing changes. -/
def Framebuffer.toggle (fb : Framebuffer) (r c : Nat) : Framebuffer :=
  if h : r < 32 ∧ c < 64 then fb.set r ((fb[r]'h.1).set c (!(fb[r]'h.1)[c]'h.2) h.2) h.1 else fb

/-- XOR every listed position with 1 (46_display.md R171). -/
def Framebuffer.toggleAll (fb : Framebuffer) : List (Nat × Nat) → Framebuffer
  | [] => fb
  | p :: ps => Framebuffer.toggleAll (Framebuffer.toggle fb p.1 p.2) ps

/-- All pixels 0 (46_display.md R170). -/
def Framebuffer.blank : Framebuffer := Vector.replicate 32 (Vector.replicate 64 false)

end Sys2Proof.Machine
end

