-- ==== Sys2Proof/Machine/Operands.lean ====
section
/-! DEFINITION. How operands are formed (30_encoding.md R73): immediates, the I-indexed bytes and their bounds check,
the decimal digits of Fx33, the sprite positions of Dxyn, the key numbers of Ex9E, ExA1 and Fx0A. -/

namespace Sys2Proof.Machine

/-- `zext_16(nnn)`: a 12-bit immediate is an absolute byte address (30_encoding.md R73 b). -/
def addrOfImm (nnn : BitVec 12) : Word := nnn.setWidth 16

/-- `zext_16(v)` of an 8-bit value (00_scope.md R6). -/
def wordOfByte (b : Byte) : Word := b.setWidth 16

/-- The bounds check of an I-indexed access of `len` bytes, before the first byte moves (20_memory.md R58; D3). -/
def withData (s : State) (len : Nat) (k : Result) : Result :=
  if inMemory s.I.toNat len then k else raise (.memoryOutOfRange .data s.I len)

/-- The address of glyph `v`: 5 * Vx, the whole byte (45_index_memory.md R152; D27, log 19). -/
def glyphAddr (v : Byte) : Word := BitVec.ofNat 16 (Config.hw.glyphLen * v.toNat)

/-- The three decimal digits of a byte, hundreds first (45_index_memory.md R153; D15, log 13). -/
def bcdDigits (v : Byte) : List Byte :=
  [BitVec.ofNat 8 (v.toNat / 100), BitVec.ofNat 8 (v.toNat / 10 % 10), BitVec.ofNat 8 (v.toNat % 10)]

/-- V[0] to V[x] (45_index_memory.md R155). -/
def regsUpTo (s : State) (x : RegNum) : List Byte := s.V.toList.take (x.val + 1)

/-- The sixteen registers with V[0] to V[x] loaded from the bytes at `base` (45_index_memory.md R156). -/
def loadedRegs (s : State) (x : RegNum) (base : Nat) : Vector Byte 16 :=
  Vector.ofFn fun i => if i ≤ x then s.memory.read (base + i.val) else s.V[i]

/-! ### Shifts -/

/-- The register a shift reads (44_alu.md R138; D9, log 9). -/
def shiftReg (rule : ShiftSource) (x y : RegNum) : RegNum :=
  match rule with
  | .vx => x
  | .vy => y

/-! ### Sprites (46_display.md R171, R172; positions are (row, column); D14, log 12) -/

/-- The positions one sprite byte sets in row `r`: bit 7 - c goes to column `cx + c`. -/
def spriteRow (b : Byte) (r cx : Nat) : List (Nat × Nat) :=
  ((List.range 8).filter fun c => b.getLsbD (7 - c)).map fun c => (r, cx + c)

/-- The positions a sprite sets, its first byte in row `r`. -/
def spritePositions (cx : Nat) : Nat → List Byte → List (Nat × Nat)
  | _, [] => []
  | r, b :: bs => spriteRow b r cx ++ spritePositions cx (r + 1) bs

/-- Whether a position lies off the screen (46_display.md R173). -/
def offScreen (p : Nat × Nat) : Bool := decide (31 < p.1) || decide (63 < p.2)

/-- Whether a draw is out of bounds (46_display.md R173; D5, log 11). -/
def drawOutOfRange (rule : DrawOobRule) (cx cy n : Nat) (ps : List (Nat × Nat)) : Bool :=
  match rule with
  | .setBitsOnly => ps.any offScreen
  | .wholeRectangle => decide (0 < n) && (decide (63 < cx + 7) || decide (31 < cy + n - 1))

/-! ### Keys (10_state.md R33) -/

/-- The numbers of the pressed keys, ascending. -/
def pressedKeys (keys : Word) : List Nat := (List.range 16).filter fun k => keys.getLsbD k

/-- The key Fx0A reports, or none when no key is pressed (47_keypad.md R183; D8, log 10). -/
def selectKey (rule : KeySelect) (keys : Word) : Option Nat :=
  match rule with
  | .lowestIndex => (pressedKeys keys).head?
  | .anyPressed pick => (pressedKeys keys)[pick % (pressedKeys keys).length]?

/-- The check of Ex9E and ExA1 that Vx is a key number (47_keypad.md R180; D7, log 18). -/
def withKey (v : Byte) (k : Result) : Result :=
  if 15 < v.toNat then raise (.keyIndexOutOfRange v) else k

end Sys2Proof.Machine
end

