-- ==== Sys2Proof/Machine/Flags.lean ====
section
/-! DEFINITION. The flags written to VF (10_state.md R25, 44_alu.md R142), each 0 or 1, and the one operation that writes
a result and its flag. -/

namespace Sys2Proof.Machine

/-- A condition as the byte VF receives. -/
def flagByte (c : Bool) : Byte := if c then 1 else 0

/-- Carry out of bit 7 (44_alu.md R136). -/
def carryFlag (a b : Byte) : Byte := flagByte (decide (255 < a.toNat + b.toNat))

/-- No borrow in `a - b` (44_alu.md R137, R139; D11, log 14). -/
def notBorrowFlag (a b : Byte) : Byte := flagByte (decide (b.toNat ≤ a.toNat))

/-- The bit a right shift drops (44_alu.md R138). -/
def lowBitFlag (a : Byte) : Byte := flagByte (a.getLsbD 0)

/-- The bit a left shift drops (44_alu.md R140). -/
def highBitFlag (a : Byte) : Byte := flagByte (a.getLsbD 7)

/-- Whether any position to be drawn is already set (46_display.md R171). -/
def collisionFlag (fb : Framebuffer) (ps : List (Nat × Nat)) : Byte :=
  flagByte (ps.any fun p => Framebuffer.pixel fb p.1 p.2)

/-- The result to V[x], then the flag to VF, so that with x = 0xF the flag stands (44_alu.md R131; D10, log 15). -/
def State.setResult (s : State) (x : RegNum) (result flag : Byte) : State := (s.setV x result).setV flagReg flag

end Sys2Proof.Machine
end

