-- ==== Sys2Proof/Machine/Alu.lean ====
section
/-! DEFINITION. Register-immediate and register-register instructions (43_immediate.md, 44_alu.md). -/

namespace Sys2Proof.Machine

/-- 6xnn (43_immediate.md R120). -/
def execLdImm (x : RegNum) (nn : Byte) (s : State) : Result := done (s.setV x nn).advance

/-- 7xnn: no flag (43_immediate.md R121). -/
def execAddImm (x : RegNum) (nn : Byte) (s : State) : Result := done (s.setV x (s.getV x + nn)).advance

/-- Cxnn: the random byte is the step's input (43_immediate.md R122; D16, logs 1, 2). -/
def execRnd (x : RegNum) (nn : Byte) (s : State) : Result := done (s.setV x (s.rnd &&& nn)).advance

/-- 8xy0 (44_alu.md R132). -/
def execLdReg (x y : RegNum) (s : State) : Result := done (s.setV x (s.getV y)).advance

/-- 8xy1: VF is left alone (44_alu.md R133). -/
def execOrReg (x y : RegNum) (s : State) : Result := done (s.setV x (s.getV x ||| s.getV y)).advance

/-- 8xy2: VF is left alone (44_alu.md R134). -/
def execAndReg (x y : RegNum) (s : State) : Result := done (s.setV x (s.getV x &&& s.getV y)).advance

/-- 8xy3: VF is left alone (44_alu.md R135). -/
def execXorReg (x y : RegNum) (s : State) : Result := done (s.setV x (s.getV x ^^^ s.getV y)).advance

/-- 8xy4 (44_alu.md R136). -/
def execAddReg (x y : RegNum) (s : State) : Result :=
  done (s.setResult x (s.getV x + s.getV y) (carryFlag (s.getV x) (s.getV y))).advance

/-- 8xy5 (44_alu.md R137). -/
def execSubReg (x y : RegNum) (s : State) : Result :=
  done (s.setResult x (s.getV x - s.getV y) (notBorrowFlag (s.getV x) (s.getV y))).advance

/-- 8xy6: logical, by one (44_alu.md R138). -/
def execShr (x y : RegNum) (s : State) : Result :=
  done (s.setResult x (s.getV (shiftReg Config.hw.shiftSource x y) >>> 1)
    (lowBitFlag (s.getV (shiftReg Config.hw.shiftSource x y)))).advance

/-- 8xy7: Vy minus Vx into Vx (44_alu.md R139; log 14). -/
def execSubn (x y : RegNum) (s : State) : Result :=
  done (s.setResult x (s.getV y - s.getV x) (notBorrowFlag (s.getV y) (s.getV x))).advance

/-- 8xyE: by one (44_alu.md R140). -/
def execShl (x y : RegNum) (s : State) : Result :=
  done (s.setResult x (s.getV (shiftReg Config.hw.shiftSource x y) <<< 1)
    (highBitFlag (s.getV (shiftReg Config.hw.shiftSource x y)))).advance

end Sys2Proof.Machine
end

