-- ==== Sys2Proof/Machine/Display.lean ====
section
/-! DEFINITION. The display instructions (46_display.md). -/

namespace Sys2Proof.Machine

/-- 00E0 (46_display.md R170). -/
def execCls (s : State) : Result := done (s.setScreen Framebuffer.blank).advance

/-- The positions Dxyn toggles: the set bits of the n bytes at I, the top-left at column Vx, row Vy (46_display.md R171). -/
def drawPositions (x y : RegNum) (n : BitVec 4) (s : State) : List (Nat × Nat) :=
  spritePositions (s.getV x).toNat (s.getV y).toNat (s.memory.readBytes s.I.toNat n.toNat)

/-- Dxyn: memory check, then screen check, then the XOR draw, VF and drawFlag (46_display.md R171, R173;
60_exceptions.md R208, D6, log 17). -/
def execDrw (x y : RegNum) (n : BitVec 4) (s : State) : Result :=
  withData s n.toNat
    (if drawOutOfRange Config.hw.drawOobRule (s.getV x).toNat (s.getV y).toNat n.toNat (drawPositions x y n s) then
      raise (.framebufferOutOfRange (s.getV x) (s.getV y))
    else
      done ((s.setScreen (Framebuffer.toggleAll s.framebuffer (drawPositions x y n s))).setV flagReg
        (collisionFlag s.framebuffer (drawPositions x y n s))).advance)

end Sys2Proof.Machine
end

