-- ==== Sys2Proof/Machine/Flow.lean ====
section
/-! DEFINITION. Control transfer and the conditional skips on registers (41_flow.md, 42_skip.md). -/

namespace Sys2Proof.Machine

/-- 1nnn (41_flow.md R100). -/
def execJp (nnn : BitVec 12) (s : State) : Result := done (s.setPc (addrOfImm nnn))

/-- 2nnn (41_flow.md R101). A stack pointer above 16, which no run reaches, is the model's own fault (log 6). -/
def execCall (nnn : BitVec 12) (s : State) : Result :=
  if s.sp = 16 then raise (.stackOverflow s.pc)
  else if 16 < s.sp.toNat then raise (.stackPointerOutOfRange s.sp)
  else done ((s.push (s.pc + 2)).setPc (addrOfImm nnn))

/-- Bnnn: the sum is not reduced (41_flow.md R102; D17, log 19). -/
def execJpV0 (nnn : BitVec 12) (s : State) : Result := done (s.setPc (wordOfByte (s.getV 0) + addrOfImm nnn))

/-- 00EE (41_flow.md R103). A stack pointer above 16, which no run reaches, is the model's own fault (log 6). -/
def execRet (s : State) : Result :=
  if s.sp = 0 then raise (.stackUnderflow s.pc)
  else if 16 < s.sp.toNat then raise (.stackPointerOutOfRange s.sp)
  else done (s.drop.setPc s.top)

/-- 3xnn (42_skip.md R111). -/
def execSeImm (x : RegNum) (nn : Byte) (s : State) : Result := done (s.skipIf (s.getV x == nn))

/-- 4xnn (42_skip.md R112). -/
def execSneImm (x : RegNum) (nn : Byte) (s : State) : Result := done (s.skipIf (s.getV x != nn))

/-- 5xy0 (42_skip.md R113). -/
def execSeReg (x y : RegNum) (s : State) : Result := done (s.skipIf (s.getV x == s.getV y))

/-- 9xy0 (42_skip.md R114). -/
def execSneReg (x y : RegNum) (s : State) : Result := done (s.skipIf (s.getV x != s.getV y))

end Sys2Proof.Machine
end

