-- ==== Sys2Proof/Machine/Index.lean ====
section
/-! DEFINITION. The index register and the memory instructions (45_index_memory.md). -/

namespace Sys2Proof.Machine

/-- Annn (45_index_memory.md R150). -/
def execLdI (nnn : BitVec 12) (s : State) : Result := done (s.setI (addrOfImm nnn)).advance

/-- Fx1E: modulo 65536, no flag (45_index_memory.md R151). -/
def execAddI (x : RegNum) (s : State) : Result := done (s.setI (s.I + wordOfByte (s.getV x))).advance

/-- Fx29 (45_index_memory.md R152). -/
def execLdF (x : RegNum) (s : State) : Result := done (s.setI (glyphAddr (s.getV x))).advance

/-- Fx33 (45_index_memory.md R153). -/
def execLdB (x : RegNum) (s : State) : Result :=
  withData s 3 (done (s.setMemory (s.memory.writeBytes s.I.toNat (bcdDigits (s.getV x)))).advance)

/-- Fx55: V0 to Vx to memory, then I past the block (45_index_memory.md R155). -/
def execStoreRegs (x : RegNum) (s : State) : Result :=
  withData s (x.val + 1)
    (done ((s.setMemory (s.memory.writeBytes s.I.toNat (regsUpTo s x))).setI (s.I + BitVec.ofNat 16 (x.val + 1))).advance)

/-- Fx65: V0 to Vx from memory, then I past the block (45_index_memory.md R156). -/
def execLoadRegs (x : RegNum) (s : State) : Result :=
  withData s (x.val + 1)
    (done ((s.setAllV (loadedRegs s x s.I.toNat)).setI (s.I + BitVec.ofNat 16 (x.val + 1))).advance)

end Sys2Proof.Machine
end

