-- ==== Sys2Proof/Machine/Keypad.lean ====
section
/-! DEFINITION. The keypad instructions (47_keypad.md). -/

namespace Sys2Proof.Machine

/-- Ex9E (47_keypad.md R181). -/
def execSkp (x : RegNum) (s : State) : Result :=
  withKey (s.getV x) (done (s.skipIf (s.keys.getLsbD (s.getV x).toNat)))

/-- ExA1 (47_keypad.md R182). -/
def execSknp (x : RegNum) (s : State) : Result :=
  withKey (s.getV x) (done (s.skipIf (!s.keys.getLsbD (s.getV x).toNat)))

/-- What Fx0A does to the state: with no key pressed nothing changes, the wait (47_keypad.md R183; log 3). -/
def afterKeyWait (x : RegNum) (s : State) : State :=
  match selectKey Config.hw.keySelect s.keys with
  | none => s
  | some k => (s.setV x (BitVec.ofNat 8 k)).advance

/-- Fx0A (47_keypad.md R183). -/
def execLdVxK (x : RegNum) (s : State) : Result := done (afterKeyWait x s)

end Sys2Proof.Machine
end

