-- ==== Sys2Proof/Machine/Timer.lean ====
section
/-! DEFINITION. The timer instructions (48_timer_instr.md). -/

namespace Sys2Proof.Machine

/-- Fx07 (48_timer_instr.md R190). -/
def execLdVxDT (x : RegNum) (s : State) : Result := done (s.setV x s.delayTimer).advance

/-- Fx15 (48_timer_instr.md R191). -/
def execLdDTVx (x : RegNum) (s : State) : Result := done (s.setDelay (s.getV x)).advance

/-- Fx18: no pulse is emitted here (48_timer_instr.md R192; log 23). -/
def execLdSTVx (x : RegNum) (s : State) : Result := done (s.setSound (s.getV x)).advance

end Sys2Proof.Machine
end

