-- ==== Sys2Proof/Machine/Environment.lean ====
section
/-! DEFINITION. The operations of the environment other than `step`: `tick`, `take_draw_flag`, `load`, `reset`
(60_exceptions.md R210 to R223, 70_reset_and_hazards.md R240 to R245), the level outputs, and what the environment does
between two steps (60_exceptions.md R216; log 2). -/

namespace Sys2Proof.Machine

/-! ### tick -/

/-- One decrement toward 0, never below (60_exceptions.md R211). -/
def timerDown (v : Byte) : Byte := if v = 0 then 0 else v - 1

/-- The two one-shot outputs of a tick (60_exceptions.md R212, R213). -/
structure TickOut where
  tonePlay : Bool
  toneStop : Bool
  deriving DecidableEq, Repr

/-- The outputs, by the sound timer before the tick (60_exceptions.md R212; C8, log 23). -/
def tickOut (st : Byte) : TickOut where
  tonePlay := decide (2 ≤ st.toNat)
  toneStop := decide (st.toNat = 1)

/-- The state after a tick: both timers one down, nothing else (60_exceptions.md R210 to R212). -/
def State.ticked (s : State) : State :=
  { s with delayTimer := timerDown s.delayTimer, soundTimer := timerDown s.soundTimer }

/-- `k` ticks in a row and their outputs, the first tick's first (60_exceptions.md R217). -/
def State.tickTimes : Nat → State → State × List TickOut
  | 0, s => (s, [])
  | k + 1, s => ((State.tickTimes k s.ticked).1, tickOut s.soundTimer :: (State.tickTimes k s.ticked).2)

/-! ### take_draw_flag and the level outputs -/

/-- The state after `take_draw_flag`; the operation answers the drawFlag it found (60_exceptions.md R223). -/
def State.flagTaken (s : State) : State := { s with drawFlag := false }

/-- `sound_active` (60_exceptions.md R214; D20, log 23). -/
def State.soundActive (s : State) : Bool := decide (0 < s.soundTimer.toNat)

/-- `draw_flag` (60_exceptions.md R223). -/
def State.drawFlagLevel (s : State) : Bool := s.drawFlag

/-- The framebuffer read port (60_exceptions.md R224). -/
def State.pixelView (s : State) (r c : Nat) : Bool := Framebuffer.pixel s.framebuffer r c

/-! ### reset and load -/

/-- `reset` on any state: every component of the block takes its reset value (70_reset_and_hazards.md R240); what the
environment holds, its inputs and its own future, is not the block's and stays (log 20). -/
def State.resetOp (s : State) : State :=
  { State.reset with keys := s.keys, rnd := s.rnd, pending := s.pending, drawn := s.drawn }

/-- `load(bytes)`: none for `ProgramTooLarge`, else the bytes from PROG_BASE upward and nothing else
(70_reset_and_hazards.md R243; it does not reset: D19, log 21). -/
def State.load (s : State) (bytes : List Byte) : Option State :=
  if Config.hw.maxProg < bytes.length then none
  else some (s.setMemory (Memory.writeBytes s.memory Config.hw.progBase bytes))

/-! ### Between two steps -/

/-- The inputs of a step, presented with it (40_fetch_decode.md R90). -/
def State.present (s : State) (keys : Word) (rnd : Byte) : State := { s with keys := keys, rnd := rnd }

/-- A timer after `k` ticks, in closed form (60_exceptions.md R217). -/
def timerAfter (k : Nat) (v : Byte) : Byte := BitVec.ofNat 8 (v.toNat - k)

/-- One entry of the environment: its ticks, its taking of the draw flag, its inputs for the next step. The fields are
given one by one so that a free number of ticks leaves every other component readable; Laws/Environment.lean shows that
this is `tickTimes`, `flagTaken` and `present` in a row. -/
def State.applyEntry (s : State) (e : EnvEntry) : State :=
  { s with
    delayTimer := timerAfter e.ticks s.delayTimer
    soundTimer := timerAfter e.ticks s.soundTimer
    drawFlag := s.drawFlag && !e.take
    keys := e.keys
    rnd := e.rnd }

/-- The n-th free entry: nothing is known of it (93_implementation_defined.md U5, U20, U21; log 2). -/
def freeEntry (n : Nat) : EnvEntry where
  ticks := Config.freeTicks n
  take := Config.freeTake n
  keys := Config.freeKeys n
  rnd := Config.freeRnd n

/-- The entry the environment takes next: the head of the list, or a free one (log 2). -/
def State.nextEntry (s : State) : EnvEntry :=
  match s.pending with
  | e :: _ => e
  | [] => freeEntry s.drawn

/-- The entry is used up. -/
def State.consumeEntry (s : State) : State :=
  { s with pending := s.pending.tail, drawn := if s.pending.isEmpty then s.drawn + 1 else s.drawn }

/-- The environment acts before a step (log 2). -/
def State.environment (s : State) : State := (s.applyEntry s.nextEntry).consumeEntry

/-- The pulses the environment's ticks draw from the block before the next step (60_exceptions.md R212, R216). -/
def State.environmentPulses (s : State) : List TickOut := (State.tickTimes s.nextEntry.ticks s).2

end Sys2Proof.Machine
end

