-- ==== Sys2Proof/Machine/Fetch.lean ====
section
/-! DEFINITION. Instruction fetch (40_fetch_decode.md R91) and placing a word where the fetch reads it. -/

namespace Sys2Proof.Machine

/-- The word at an address, high byte first (20_memory.md R54). -/
def Memory.readWord (m : Memory) (a : Nat) : Word := wordOfBytes (m.read a) (m.read (a + 1))

/-- Fetch: two bytes at pc, of the current memory; beyond memory the fault (40_fetch_decode.md R91; D4, log 17). -/
def fetch (s : State) : Except Fault Word :=
  if inMemory s.pc.toNat 2 then .ok (s.memory.readWord s.pc.toNat) else .error (.memoryOutOfRange .fetch s.pc 2)

/-- The state with the two bytes of a word at pc; where pc admits no fetch there is no such place and nothing changes
(log 22). -/
def State.placeWord (s : State) (w : Word) : State :=
  if inMemory s.pc.toNat 2 then s.setMemory (s.memory.writeBytes s.pc.toNat (bytesOfWord w)) else s

end Sys2Proof.Machine
end

