-- ==== Sys2Proof/Machine/Step.lean ====
section
/-! DEFINITION. The step: fetch, decode, dispatch, execute (40_fetch_decode.md R90 to R93), after the environment has
acted (log 2). -/

namespace Sys2Proof.Machine

/-- One fetch-decode-execute cycle on the inputs the state holds: `step(keys, rnd)` of 40_fetch_decode.md R90 once they
are presented. The faults come in the order of 60_exceptions.md R208. -/
def cycle (s : State) : Host.Outcome State Fault Refusal :=
  match fetch s with
  | .error f => raise f
  | .ok w =>
    match decodeWord w with
    | none => raise (.unknownOpcode w s.pc)
    | some i => exec i s

/-- One step of the machine: the environment acts, then one instruction runs. -/
def step (s : State) : Host.Outcome State Fault Refusal := cycle s.environment

/-- The state whose next step fetches the given instruction: its two bytes at pc, high byte first (20_memory.md R54).
Bits at and above `nbits` are 0. A program comes to run by `load` from outside the machine; this stands for it (log 21). -/
def State.withFetchWord (s : State) (nbits w : Nat) : State := s.placeWord (BitVec.ofNat 16 (w % 2 ^ nbits))

end Sys2Proof.Machine
end

