-- ==== Sys2Proof/Machine/Interface.lean ====
section
/-! DEFINITION. The block's five operations and their results (00_scope.md R9, 60_exceptions.md R220), for claims about
any interleaving the environment may choose. -/

namespace Sys2Proof.Machine

/-- The operations the environment invokes (60_exceptions.md R220). -/
inductive Op where
  | reset
  | load (bytes : List Byte)
  | step (keys : Word) (rnd : Byte)
  | tick
  | takeDrawFlag
  deriving DecidableEq, Repr

/-- What an operation answers (00_scope.md R9, 60_exceptions.md R220). -/
inductive OpResult where
  /-- `reset` answers nothing. -/
  | resetDone
  | loadOk
  | programTooLarge
  | continued
  | waitingForKey
  | fault (f : Fault)
  | refused (r : Refusal)
  | ticked (out : TickOut)
  | drawFlagWas (b : Bool)
  deriving DecidableEq, Repr

/-- Whether an instruction ends with `WaitingForKey` in a state: Fx0A with no key pressed, and no other
(40_fetch_decode.md R96, 47_keypad.md R183; log 3). -/
def waitsIn (i : Instr) (s : State) : Bool :=
  match i with
  | .ldVxK _ => s.keys == 0
  | _ => false

/-- Whether the cycle of a state ends with `WaitingForKey` rather than `Continue`. -/
def State.waitsForKey (s : State) : Bool :=
  match fetch s with
  | .ok w =>
    match decodeWord w with
    | some i => waitsIn i s
    | none => false
  | .error _ => false

/-- One operation: the state after it and its answer. A fault leaves the state the step was invoked in, with the inputs
that were presented (60_exceptions.md R202). -/
def perform (op : Op) (s : State) : State × OpResult :=
  match op with
  | .reset => (s.resetOp, .resetDone)
  | .load bytes =>
    match s.load bytes with
    | some t => (t, .loadOk)
    | none => (s, .programTooLarge)
  | .step keys rnd =>
    match cycle (s.present keys rnd) with
    | .next t => (t, if (s.present keys rnd).waitsForKey then .waitingForKey else .continued)
    | .fault f => (s.present keys rnd, .fault f)
    | .refused r => (s.present keys rnd, .refused r)
  | .tick => (s.ticked, .ticked (tickOut s.soundTimer))
  | .takeDrawFlag => (s.flagTaken, .drawFlagWas s.drawFlag)

end Sys2Proof.Machine
end

