-- ==== Sys2Proof/Safety.lean ====
section
/-! DEFINITION. The terms claims use: what a step may change, the invariant of reachable states (10_state.md R37), and
how a run ends (70_reset_and_hazards.md R255). -/

namespace Sys2Proof.Machine

/-- The components of the block (10_state.md R20). -/
inductive Component where
  | memory | V | I | pc | stack | sp | delayTimer | soundTimer | framebuffer | drawFlag
  deriving DecidableEq, Repr

/-- Two states agree on a component, memory and the screen through the reads of one byte and of one pixel, and the
registers and slots one by one. -/
def Agree (c : Component) (s t : State) : Prop :=
  match c with
  | .memory => ∀ a, t.memory.read a = s.memory.read a
  | .V => ∀ r, t.getV r = s.getV r
  | .I => t.I = s.I
  | .pc => t.pc = s.pc
  | .stack => ∀ k : Fin 16, t.stack[k] = s.stack[k]
  | .sp => t.sp = s.sp
  | .delayTimer => t.delayTimer = s.delayTimer
  | .soundTimer => t.soundTimer = s.soundTimer
  | .framebuffer => ∀ r c, t.framebuffer.pixel r c = s.framebuffer.pixel r c
  | .drawFlag => t.drawFlag = s.drawFlag

/-- The environment's side of the state is as it was. -/
def SameEnvironment (s t : State) : Prop :=
  t.keys = s.keys ∧ t.rnd = s.rnd ∧ t.pending = s.pending ∧ t.drawn = s.drawn

/-- Nothing but the listed components changed. -/
def OnlyChanges (cs : List Component) (s t : State) : Prop :=
  (∀ c, c ∉ cs → Agree c s t) ∧ SameEnvironment s t

/-- The invariant of reachable states (10_state.md R37): the memory's canonical form (the model's own, log 7), (a) sp at
most 16, (c) every stacked return address at most 0x1000, (d) pc at most 0x10FE. R37 (b) and (e) are in the types. -/
structure Inv (s : State) : Prop where
  memory_wf : s.memory.wf = true
  sp_le : s.sp.toNat ≤ 16
  stack_le : ∀ k : Fin 16, k.val < s.sp.toNat → s.stack[k].toNat ≤ 0x1000
  pc_le : s.pc.toNat ≤ 0x10FE

/-- The states reachable from reset by the block's operations (10_state.md R37). -/
inductive Reachable : State → Prop where
  | reset : Reachable State.reset
  | perform (op : Op) (s : State) : Reachable s → Reachable (perform op s).1

/-! ### What the rules say of every instruction, as tables -/

/-- The components an instruction may change: the "written by" column of 10_state.md R20. -/
def writes : Instr → List Component
  | .cls => [.pc, .framebuffer, .drawFlag]
  | .ret => [.pc, .sp]
  | .jp _ | .jpV0 _ => [.pc]
  | .call _ => [.pc, .sp, .stack]
  | .seImm _ _ | .sneImm _ _ | .seReg _ _ | .sneReg _ _ | .skp _ | .sknp _ => [.pc]
  | .ldImm _ _ | .addImm _ _ | .rnd _ _ | .ldVxDT _ | .ldVxK _ => [.pc, .V]
  | .ldReg _ _ | .orReg _ _ | .andReg _ _ | .xorReg _ _ => [.pc, .V]
  | .addReg _ _ | .subReg _ _ | .shr _ _ | .subn _ _ | .shl _ _ => [.pc, .V]
  | .ldI _ | .addI _ | .ldF _ => [.pc, .I]
  | .drw _ _ _ => [.pc, .V, .framebuffer, .drawFlag]
  | .ldDTVx _ => [.pc, .delayTimer]
  | .ldSTVx _ => [.pc, .soundTimer]
  | .ldB _ => [.pc, .memory]
  | .storeRegs _ => [.pc, .memory, .I]
  | .loadRegs _ => [.pc, .V, .I]

/-- The V registers an instruction may change: its destination, VF for the six flag writers (10_state.md R25), V[0] to
V[x] for Fx65. -/
def writesReg (r : RegNum) : Instr → Prop
  | .ldImm x _ | .addImm x _ | .rnd x _ | .ldVxDT x | .ldVxK x => r = x
  | .ldReg x _ | .orReg x _ | .andReg x _ | .xorReg x _ => r = x
  | .addReg x _ | .subReg x _ | .shr x _ | .subn x _ | .shl x _ => r = x ∨ r = 15
  | .drw _ _ _ => r = 15
  | .loadRegs x => r ≤ x
  | .cls | .ret | .jp _ | .jpV0 _ | .call _ => False
  | .seImm _ _ | .sneImm _ _ | .seReg _ _ | .sneReg _ _ | .skp _ | .sknp _ => False
  | .ldI _ | .addI _ | .ldF _ | .ldDTVx _ | .ldSTVx _ | .ldB _ | .storeRegs _ => False

/-- The six instructions that write a flag to VF (10_state.md R25). -/
def WritesFlag : Instr → Prop
  | .addReg _ _ | .subReg _ _ | .shr _ _ | .subn _ _ | .shl _ _ | .drw _ _ _ => True
  | .ldImm _ _ | .addImm _ _ | .rnd _ _ | .ldVxDT _ | .ldVxK _ => False
  | .ldReg _ _ | .orReg _ _ | .andReg _ _ | .xorReg _ _ | .loadRegs _ => False
  | .cls | .ret | .jp _ | .jpV0 _ | .call _ => False
  | .seImm _ _ | .sneImm _ _ | .seReg _ _ | .sneReg _ _ | .skp _ | .sknp _ => False
  | .ldI _ | .addI _ | .ldF _ | .ldDTVx _ | .ldSTVx _ | .ldB _ | .storeRegs _ => False

/-- How many bytes of memory an instruction touches through I (20_memory.md R58). -/
def dataLength : Instr → Nat
  | .drw _ _ n => n.toNat
  | .ldB _ => 3
  | .storeRegs x | .loadRegs x => x.val + 1
  | .cls | .ret | .jp _ | .jpV0 _ | .call _ => 0
  | .seImm _ _ | .sneImm _ _ | .seReg _ _ | .sneReg _ _ | .skp _ | .sknp _ => 0
  | .ldImm _ _ | .addImm _ _ | .rnd _ _ | .ldVxDT _ | .ldVxK _ => 0
  | .ldReg _ _ | .orReg _ _ | .andReg _ _ | .xorReg _ _ => 0
  | .addReg _ _ | .subReg _ _ | .shr _ _ | .subn _ _ | .shl _ _ => 0
  | .ldI _ | .addI _ | .ldF _ | .ldDTVx _ | .ldSTVx _ => 0

/-- pc after a skip whose condition is `c`, on unbounded integers (40_fetch_decode.md R94). -/
def pcAfterSkip (c : Bool) (s : State) : Nat := if c then s.pc.toNat + 4 else s.pc.toNat + 2

/-- The table of 40_fetch_decode.md R94: pc after a step, on unbounded integers. -/
def pcAfter (i : Instr) (s : State) : Nat :=
  match i with
  | .jp nnn | .call nnn => nnn.toNat
  | .ret => (s.stack.getD (s.sp.toNat - 1) 0).toNat
  | .jpV0 nnn => (s.getV 0).toNat + nnn.toNat
  | .seImm x nn => pcAfterSkip (s.getV x == nn) s
  | .sneImm x nn => pcAfterSkip (s.getV x != nn) s
  | .seReg x y => pcAfterSkip (s.getV x == s.getV y) s
  | .sneReg x y => pcAfterSkip (s.getV x != s.getV y) s
  | .skp x => pcAfterSkip (s.keys.getLsbD (s.getV x).toNat) s
  | .sknp x => pcAfterSkip (!s.keys.getLsbD (s.getV x).toNat) s
  | .ldVxK _ => if s.keys = 0 then s.pc.toNat else s.pc.toNat + 2
  | .cls | .ldImm _ _ | .addImm _ _ | .rnd _ _ | .ldVxDT _ | .ldDTVx _ | .ldSTVx _ => s.pc.toNat + 2
  | .ldReg _ _ | .orReg _ _ | .andReg _ _ | .xorReg _ _ => s.pc.toNat + 2
  | .addReg _ _ | .subReg _ _ | .shr _ _ | .subn _ _ | .shl _ _ => s.pc.toNat + 2
  | .ldI _ | .addI _ | .ldF _ | .ldB _ | .storeRegs _ | .loadRegs _ | .drw _ _ _ => s.pc.toNat + 2

/-- The set P of 46_display.md R171, R172: the sprite sets the position at row `r`, column `c`. -/
def SpriteSets (x y : RegNum) (n : BitVec 4) (s : State) (r c : Nat) : Prop :=
  ∃ dr dc, dr < n.toNat ∧ dc < 8 ∧ (s.memory.read (s.I.toNat + dr)).getLsbD (7 - dc) = true ∧
    r = (s.getV y).toNat + dr ∧ c = (s.getV x).toNat + dc

/-- A result with its state, if any, passed through a function. -/
def mapNext (f : State → State) : Result → Result
  | .next t => .next (f t)
  | .fault e => .fault e
  | .refused r => .refused r

/-- An instruction's word lies in its row (mask and value of 30_encoding.md R76) and decodes to it. -/
def EncodedAs (mask value : Word) (i : Instr) : Prop := encode i &&& mask = value ∧ decodeWord (encode i) = some i

/-! ### The end of a run -/

/-- A jump to itself: the spec's recommended normal end of a run (70_reset_and_hazards.md R255, D22). -/
def EndsInSelfJump (s : State) : Prop :=
  ∃ nnn, fetch s = .ok (encode (.jp nnn)) ∧ addrOfImm nnn = s.pc

/-- A fault result: the abnormal end of a run (70_reset_and_hazards.md R255, D22). -/
def EndsInFault (s : State) : Prop := ∃ f, cycle s = .fault f

end Sys2Proof.Machine
end

