-- ==== Sys2Proof/Certificates/Slice0/Obligations.lean ====
section
/-! DEFINITION. The statements about this machine. A statement's docstring names the rule of spec/ it formalises; where it
rests on a decision of the spec (D<n> of 92_eei_decisions.md) or on the model's own choice (log <n>), the docstring says so
and its basis in OBLIGATIONS.json is derived. `OnlyChanges cs s t` is the frame: every other component, memory through the
read of one byte, is as it was; it includes `SameEnvironment`, that the input ports and the model's own fields stay, which is
the model's form (logs 1, 2). -/

open Sys2Proof Sys2Proof.Machine

/-! ### Encoding -/

/-- 30_encoding.md R76, R80 (exact match on every fixed digit is D12): decoding an encoded instruction gives it back, with
every operand at every value, alone and at the head of any bytes. -/
def Obligations.DecodeOfEncodeIsTheInstruction : Prop :=
  ∀ (i : Instr) (rest : List Byte), decodeWord (encode i) = some i ∧ decode (encodeBytes i ++ rest) = .ok (i, rest)

/-- 30_encoding.md R77, R80 (D9 for the ignored y, log 22): a word that decodes is the encoding of what it decodes to, so no
bit of a word is dropped. -/
def Obligations.EncodeOfDecodeIsTheWord : Prop :=
  ∀ (w : Word) (i : Instr), decodeWord w = some i → encode i = w

/-- 30_encoding.md R76 (D12): a word decodes to an instruction of a row exactly when `w & mask = match`, and no word belongs to two
rows. -/
def Obligations.DecoderAgreesWithOpcodeTable : Prop :=
  ∀ (w : Word) (r : OpcodeRow), r ∈ opcodeTable →
    ((w &&& r.mask = r.value ↔ ∃ i, decodeWord w = some i ∧ i.mnemonic = r.mnemonic) ∧
      ∀ r' ∈ opcodeTable, w &&& r.mask = r.value → w &&& r'.mask = r'.value → r = r')

/-- 30_encoding.md R78 (D12): the words that are no instruction, exhaustively. -/
def Obligations.IllegalWordsAreExactlyTheListed : Prop :=
  ∀ w : Word, decodeWord w = none ↔
    (w.toNat / 4096 = 0 ∧ w.toNat ≠ 0x00E0 ∧ w.toNat ≠ 0x00EE) ∨
    ((w.toNat / 4096 = 5 ∨ w.toNat / 4096 = 9) ∧ w.toNat % 16 ≠ 0) ∨
    (w.toNat / 4096 = 8 ∧ w.toNat % 16 ∈ [8, 9, 0xA, 0xB, 0xC, 0xD, 0xF]) ∨
    (w.toNat / 4096 = 0xE ∧ w.toNat % 256 ∉ [0x9E, 0xA1]) ∨
    (w.toNat / 4096 = 0xF ∧ w.toNat % 256 ∉ [0x07, 0x0A, 0x15, 0x18, 0x1E, 0x29, 0x33, 0x55, 0x65])

/-- Words written out from the patterns of 30_encoding.md R76 decode to what they stand for. -/
def Obligations.WordsFromThePatternsDecode : Prop :=
  decodeWord 0b0000000011101110#16 = some .ret ∧
  decodeWord 0b0011101000000101#16 = some (.seImm 0xA 0x05) ∧
  decodeWord 0b1000000100101110#16 = some (.shl 1 2) ∧
  decodeWord 0b1010111111111111#16 = some (.ldI 0xFFF) ∧
  decodeWord 0b1101000000010101#16 = some (.drw 0 1 5) ∧
  decodeWord 0b1110010110100001#16 = some (.sknp 5) ∧
  decodeWord 0b1111001101100101#16 = some (.loadRegs 3)

/-! ### The step -/

/-- 40_fetch_decode.md R90 to R93: when the two bytes at pc decode to `i`, a step is `i` executed after the environment has
acted; the environment comes first by the model's choice (log 2). -/
def Obligations.StepRunsTheDecodedInstruction : Prop :=
  ∀ (s : State) (i : Instr), s.pc.toNat ≤ 0xFFE →
    decodeWord (s.memory.read s.pc.toNat ++ s.memory.read (s.pc.toNat + 1)) = some i →
    step s = exec i s.environment

/-- 60_exceptions.md R216, R217, R221, R223, R225, in the model's own form (log 2): before a step the environment runs its entry's
ticks, takes the flag if the entry says so, presents its keys and random byte, and touches nothing else; the entry is the head of
`pending`, or, when that list is empty, a free one of which nothing is known. -/
def Obligations.EnvironmentActsBeforeTheStep : Prop :=
  ∀ s : State,
    (s.environment.delayTimer.toNat = s.delayTimer.toNat - s.nextEntry.ticks ∧
      s.environment.soundTimer.toNat = s.soundTimer.toNat - s.nextEntry.ticks ∧
      s.environment.drawFlag = (s.drawFlag && !s.nextEntry.take) ∧
      s.environment.keys = s.nextEntry.keys ∧ s.environment.rnd = s.nextEntry.rnd) ∧
    (∀ c, c ∉ [Component.delayTimer, .soundTimer, .drawFlag] → Agree c s s.environment) ∧
    (∀ e es, s.pending = e :: es → s.nextEntry = e ∧ s.environment.pending = es ∧ s.environment.drawn = s.drawn) ∧
    (s.pending = [] →
      s.nextEntry = ⟨Config.freeTicks s.drawn, Config.freeTake s.drawn, Config.freeKeys s.drawn, Config.freeRnd s.drawn⟩ ∧
      s.environment.pending = [] ∧ s.environment.drawn = s.drawn + 1)

/-- 40_fetch_decode.md R91 (D4, log 17): two bytes at pc, high byte first, even or odd; a pc above 0xFFE faults and is not wrapped. -/
def Obligations.FetchReadsTwoBytesOrFaults : Prop :=
  ∀ s : State,
    (s.pc.toNat ≤ 0xFFE → ∃ w, fetch s = .ok w ∧
      w.toNat = 256 * (s.memory.read s.pc.toNat).toNat + (s.memory.read (s.pc.toNat + 1)).toNat) ∧
    (0xFFE < s.pc.toNat → step s = .fault (.memoryOutOfRange .fetch s.pc 2))

/-- 40_fetch_decode.md R93, 60_exceptions.md R203 (the recorded information is D2, log 5): a word that is no instruction faults
with the word and pc. -/
def Obligations.UnknownWordFaults : Prop :=
  ∀ s : State, s.pc.toNat ≤ 0xFFE →
    decodeWord (s.memory.read s.pc.toNat ++ s.memory.read (s.pc.toNat + 1)) = none →
    step s = .fault (.unknownOpcode (s.memory.read s.pc.toNat ++ s.memory.read (s.pc.toNat + 1)) s.pc)

/-- 40_fetch_decode.md R97: `rnd` is read only by Cxnn, `keys` only by Ex9E, ExA1 and Fx0A; any other instruction gives the same
result whatever they are. -/
def Obligations.InputsAreReadOnlyWhereNamed : Prop :=
  ∀ (i : Instr) (s : State) (k k' : Word) (b b' : Byte),
    ((∀ x nn, i ≠ .rnd x nn) →
      exec i (s.present k b') = mapNext (fun t => t.present k b') (exec i (s.present k b))) ∧
    ((∀ x, i ≠ .skp x ∧ i ≠ .sknp x ∧ i ≠ .ldVxK x) →
      exec i (s.present k' b) = mapNext (fun t => t.present k' b) (exec i (s.present k b)))

/-- 40_fetch_decode.md R94: the pc law, over all 34 instructions, on unbounded integers from any pc a fetch is possible at: 2, or 4
on a satisfied skip, or the target; a step that waits or faults leaves pc. -/
def Obligations.ProgramCounterLaw : Prop :=
  (∀ (i : Instr) (s t : State), s.pc.toNat ≤ 0xFFE → exec i s = .next t → t.pc.toNat = pcAfter i s) ∧
  ∀ (s : State) (keys : Word) (rnd : Byte),
    ((∃ f, (perform (.step keys rnd) s).2 = .fault f) ∨ (perform (.step keys rnd) s).2 = .waitingForKey) →
      (perform (.step keys rnd) s).1.pc = s.pc

/-- 40_fetch_decode.md R96, 60_exceptions.md R201, R208 (D3, D5, D7): an instruction faults only as the fault table says, the others
never, and none is refused. The premise on sp is the invariant of R37 (log 6). -/
def Obligations.InstructionsFaultOnlyAsTheTableSays : Prop :=
  (∀ (i : Instr) (s : State) (r : Refusal), exec i s ≠ .refused r) ∧
  ∀ (i : Instr) (s : State) (f : Fault), s.sp.toNat ≤ 16 → exec i s = .fault f →
    ((∃ nnn, i = .call nnn) ∧ s.sp.toNat = 16 ∧ f = .stackOverflow s.pc) ∨
    (i = .ret ∧ s.sp.toNat = 0 ∧ f = .stackUnderflow s.pc) ∨
    (0 < dataLength i ∧ 0xFFF < s.I.toNat + dataLength i - 1 ∧ f = .memoryOutOfRange .data s.I (dataLength i)) ∨
    (∃ x y n r c, i = .drw x y n ∧ SpriteSets x y n s r c ∧ (31 < r ∨ 63 < c) ∧
      f = .framebufferOutOfRange (s.getV x) (s.getV y)) ∨
    (∃ x, (i = .skp x ∨ i = .sknp x) ∧ 15 < (s.getV x).toNat ∧ f = .keyIndexOutOfRange (s.getV x))

/-- 10_state.md R20: a step changes only the components whose "written by" column names its instruction, and never the environment's
side of the state. -/
def Obligations.StepsWriteOnlyWhatTheTableSays : Prop :=
  ∀ (i : Instr) (s t : State), exec i s = .next t → OnlyChanges (writes i) s t

/-- 10_state.md R24, R25: a V register changes only as a destination or, for VF, by one of the six flag writers, and each of these
leaves 0 or 1 in VF, whatever x and y are (D10 for x = 0xF). -/
def Obligations.RegistersChangeOnlyAsDestinations : Prop :=
  ∀ (i : Instr) (s t : State), exec i s = .next t →
    (∀ r, ¬ writesReg r i → t.getV r = s.getV r) ∧ (WritesFlag i → t.getV 15 = 0 ∨ t.getV 15 = 1)

/-- 60_exceptions.md R204, in the form of an environment entry (log 2): a step that faults faults again with the same information, whatever
ticks run, whether or not the draw flag is taken and whatever inputs are presented in between. A load or a reset in between is no such
entry, and after it the step need not fault. -/
def Obligations.FaultedStepFaultsAgain : Prop :=
  ∀ (s : State) (f : Fault), cycle s = .fault f → ∀ e : EnvEntry, cycle (s.applyEntry e) = .fault f

/-! ### Invariants -/

/-- 10_state.md R37, the memory's form being the model's own (log 7): the state after reset meets the invariant. -/
def Obligations.ResetMeetsInvariant : Prop := Inv State.reset

/-- 10_state.md R37: every step keeps the invariant, from every state that meets it. -/
def Obligations.StepKeepsInvariant : Prop :=
  ∀ s t : State, Inv s → step s = .next t → Inv t

/-- 10_state.md R37: every operation of the block keeps the invariant, faults and refused loads included. -/
def Obligations.OperationsKeepInvariant : Prop :=
  ∀ (op : Op) (s : State), Inv s → Inv (perform op s).1

/-- 10_state.md R37: every state reachable from reset by the block's operations meets the invariant, and there the machine's own fault
about sp (log 6) cannot occur: every fault is one of the spec's six kinds. -/
def Obligations.ReachableStatesMeetInvariantAndSpecFaults : Prop :=
  ∀ s : State, Reachable s → Inv s ∧ ∀ f : Fault, cycle s = .fault f → f.code.isSome = true

/-! ### Control transfer -/

/-- 41_flow.md R100: `1nnn` sets pc to nnn, zero-extended, and changes nothing else; the target 0xFFF makes the next step fault. -/
def Obligations.JumpSetsPc : Prop :=
  ∀ (nnn : BitVec 12) (s : State),
    EncodedAs 0xF000 0x1000 (.jp nnn) ∧
    ∃ t, exec (.jp nnn) s = .next t ∧ t.pc.toNat = nnn.toNat ∧ OnlyChanges [.pc] s t ∧
      (nnn.toNat = 0xFFF → step t = .fault (.memoryOutOfRange .fetch 0xFFF 2))

/-- 41_flow.md R101: `2nnn` pushes pc + 2 into the slot sp indexes, then sp + 1, then pc = nnn; with sp = 16 it faults. From
pc = 0xFFE it pushes 0x1000, and the step behind the return to it faults at fetch. -/
def Obligations.CallPushesReturnAddress : Prop :=
  ∀ (nnn : BitVec 12) (s : State),
    EncodedAs 0xF000 0x2000 (.call nnn) ∧
    (s.sp.toNat = 16 → exec (.call nnn) s = .fault (.stackOverflow s.pc)) ∧
    (s.sp.toNat < 16 → ∃ t, exec (.call nnn) s = .next t ∧
      (∀ k : Fin 16, t.stack[k] = if k.val = s.sp.toNat then s.pc + 2 else s.stack[k]) ∧
      t.sp.toNat = s.sp.toNat + 1 ∧ t.pc.toNat = nnn.toNat ∧ OnlyChanges [.pc, .sp, .stack] s t ∧
      (s.pc.toNat = 0xFFE → ∃ u, exec .ret t = .next u ∧ step u = .fault (.memoryOutOfRange .fetch 0x1000 2)))

/-- 41_flow.md R103 (that the popped slot keeps its content is D28, log 25): `00EE` drops sp and takes pc from the slot it then indexes;
with sp = 0 it faults. -/
def Obligations.ReturnPopsPc : Prop :=
  ∀ s : State,
    (s.sp.toNat = 0 → exec .ret s = .fault (.stackUnderflow s.pc)) ∧
    (∀ k : Fin 16, s.sp.toNat = k.val + 1 → ∃ t, exec .ret s = .next t ∧
      t.sp.toNat = k.val ∧ t.pc = s.stack[k] ∧ OnlyChanges [.pc, .sp] s t)

/-- 41_flow.md R101, R103, log 6: a stack pointer above 16, which no run reaches, is stopped on by the model's own fault. -/
def Obligations.StackPointerBeyondTheStackStops : Prop :=
  ∀ (nnn : BitVec 12) (s : State), 16 < s.sp.toNat →
    exec (.call nnn) s = .fault (.stackPointerOutOfRange s.sp) ∧ exec .ret s = .fault (.stackPointerOutOfRange s.sp)

/-- 41_flow.md R101, R103: a return after a call comes back to the instruction behind the call, with sp as it was. -/
def Obligations.ReturnAfterCallComesBack : Prop :=
  ∀ (nnn : BitVec 12) (s t : State), exec (.call nnn) s = .next t →
    ∃ u, exec .ret t = .next u ∧ u.pc = s.pc + 2 ∧ OnlyChanges [.pc, .stack] s u

/-- 41_flow.md R102 (no masking: D17, log 19): `Bnnn` sets pc to the whole sum V0 + nnn. -/
def Obligations.ComputedJumpAddsV0 : Prop :=
  ∀ (nnn : BitVec 12) (s : State),
    ∃ t, exec (.jpV0 nnn) s = .next t ∧ t.pc.toNat = (s.getV 0).toNat + nnn.toNat ∧ OnlyChanges [.pc] s t

/-- 42_skip.md R111, R112: 3xnn skips when Vx = nn, 4xnn when Vx != nn; nothing but pc is written; a skip taken at 0xFFE leaves pc at
0x1002 and the next step faults. -/
def Obligations.SkipsOnImmediate : Prop :=
  ∀ (x : RegNum) (nn : Byte) (s : State),
    EncodedAs 0xF000 0x3000 (.seImm x nn) ∧ EncodedAs 0xF000 0x4000 (.sneImm x nn) ∧
    (∃ t, exec (.seImm x nn) s = .next t ∧
      t.pc = (if (s.getV x).toNat = nn.toNat then s.pc + 4 else s.pc + 2) ∧ OnlyChanges [.pc] s t ∧
      (s.pc.toNat = 0xFFE → (s.getV x).toNat = nn.toNat → step t = .fault (.memoryOutOfRange .fetch 0x1002 2))) ∧
    (∃ t, exec (.sneImm x nn) s = .next t ∧
      t.pc = (if (s.getV x).toNat = nn.toNat then s.pc + 2 else s.pc + 4) ∧ OnlyChanges [.pc] s t)

/-- 42_skip.md R113, R114: 5xy0 skips when Vx = Vy, 9xy0 when Vx != Vy; nothing but pc is written. -/
def Obligations.SkipsOnRegisters : Prop :=
  ∀ (x y : RegNum) (s : State),
    (∃ t, exec (.seReg x y) s = .next t ∧
      t.pc = (if (s.getV x).toNat = (s.getV y).toNat then s.pc + 4 else s.pc + 2) ∧ OnlyChanges [.pc] s t) ∧
    (∃ t, exec (.sneReg x y) s = .next t ∧
      t.pc = (if (s.getV x).toNat = (s.getV y).toNat then s.pc + 2 else s.pc + 4) ∧ OnlyChanges [.pc] s t)

/-! ### Immediates and ALU -/

/-- 43_immediate.md R120, R121: 6xnn writes nn; 7xnn adds nn modulo 256 and writes no flag, VF only as a destination. -/
def Obligations.ImmediateLoadAndAdd : Prop :=
  ∀ (x : RegNum) (nn : Byte) (s : State),
    EncodedAs 0xF000 0x6000 (.ldImm x nn) ∧ EncodedAs 0xF000 0x7000 (.addImm x nn) ∧
    (∃ t, exec (.ldImm x nn) s = .next t ∧ (∀ r, t.getV r = if r = x then nn else s.getV r) ∧
      t.pc = s.pc + 2 ∧ OnlyChanges [.V, .pc] s t) ∧
    (∃ t, exec (.addImm x nn) s = .next t ∧
      (∀ r, (t.getV r).toNat = if r = x then ((s.getV x).toNat + nn.toNat) % 256 else (s.getV r).toNat) ∧
      t.pc = s.pc + 2 ∧ OnlyChanges [.V, .pc] s t)

/-- 44_alu.md R132 to R135: assign, OR, AND, XOR write Vx bit by bit and leave VF alone unless x = 0xF. -/
def Obligations.AssignAndLogicWriteVxOnly : Prop :=
  ∀ (x y : RegNum) (s : State),
    (EncodedAs 0xF00F 0x8000 (.ldReg x y) ∧ EncodedAs 0xF00F 0x8001 (.orReg x y) ∧
      EncodedAs 0xF00F 0x8002 (.andReg x y) ∧ EncodedAs 0xF00F 0x8003 (.xorReg x y)) ∧
    (∃ t, exec (.ldReg x y) s = .next t ∧ (∀ r, t.getV r = if r = x then s.getV y else s.getV r) ∧
      t.pc = s.pc + 2 ∧ OnlyChanges [.V, .pc] s t) ∧
    (∃ t, exec (.orReg x y) s = .next t ∧
      (∀ k, (t.getV x).getLsbD k = ((s.getV x).getLsbD k || (s.getV y).getLsbD k)) ∧
      (∀ r, r ≠ x → t.getV r = s.getV r) ∧ t.pc = s.pc + 2 ∧ OnlyChanges [.V, .pc] s t) ∧
    (∃ t, exec (.andReg x y) s = .next t ∧
      (∀ k, (t.getV x).getLsbD k = ((s.getV x).getLsbD k && (s.getV y).getLsbD k)) ∧
      (∀ r, r ≠ x → t.getV r = s.getV r) ∧ t.pc = s.pc + 2 ∧ OnlyChanges [.V, .pc] s t) ∧
    (∃ t, exec (.xorReg x y) s = .next t ∧
      (∀ k, (t.getV x).getLsbD k = ((s.getV x).getLsbD k ^^ (s.getV y).getLsbD k)) ∧
      (∀ r, r ≠ x → t.getV r = s.getV r) ∧ t.pc = s.pc + 2 ∧ OnlyChanges [.V, .pc] s t)

/-- 44_alu.md R136 and, for x = 0xF, R131 (D10, log 15): the sum modulo 256 to Vx, then the carry to VF. -/
def Obligations.AddSetsCarry : Prop :=
  ∀ (x y : RegNum) (s : State),
    ∃ t, exec (.addReg x y) s = .next t ∧
      (t.getV 15).toNat = (if 255 < (s.getV x).toNat + (s.getV y).toNat then 1 else 0) ∧
      (x ≠ 15 → (t.getV x).toNat = ((s.getV x).toNat + (s.getV y).toNat) % 256) ∧
      (∀ r, r ≠ x → r ≠ 15 → t.getV r = s.getV r) ∧ t.pc = s.pc + 2 ∧ OnlyChanges [.V, .pc] s t

/-- 44_alu.md R137, R139, R131 (the comparison is D11, the order D10, what SUBN computes is general knowledge; logs 14, 15): the
difference modulo 256 to Vx, then not-borrow to VF, 1 on equal operands. -/
def Obligations.SubtractionsSetNotBorrow : Prop :=
  ∀ (x y : RegNum) (s : State),
    (∃ t, exec (.subReg x y) s = .next t ∧
      (t.getV 15).toNat = (if (s.getV y).toNat ≤ (s.getV x).toNat then 1 else 0) ∧
      (x ≠ 15 → ((t.getV x).toNat : Int) = ((s.getV x).toNat - (s.getV y).toNat : Int) % 256) ∧
      (∀ r, r ≠ x → r ≠ 15 → t.getV r = s.getV r) ∧ t.pc = s.pc + 2 ∧ OnlyChanges [.V, .pc] s t) ∧
    (∃ t, exec (.subn x y) s = .next t ∧
      (t.getV 15).toNat = (if (s.getV x).toNat ≤ (s.getV y).toNat then 1 else 0) ∧
      (x ≠ 15 → ((t.getV x).toNat : Int) = ((s.getV y).toNat - (s.getV x).toNat : Int) % 256) ∧
      (∀ r, r ≠ x → r ≠ 15 → t.getV r = s.getV r) ∧ t.pc = s.pc + 2 ∧ OnlyChanges [.V, .pc] s t)

/-- 44_alu.md R138, R140, R131 (that Vx is shifted is D9, the order D10; logs 9, 15): by one, logical, Vx in place, the dropped bit to
VF, and y makes no difference. -/
def Obligations.ShiftsDropOneBitIntoVF : Prop :=
  ∀ (x y : RegNum) (s : State),
    (∃ t, exec (.shr x y) s = .next t ∧ (t.getV 15).toNat = (s.getV x).toNat % 2 ∧
      (x ≠ 15 → (t.getV x).toNat = (s.getV x).toNat / 2) ∧
      (∀ r, r ≠ x → r ≠ 15 → t.getV r = s.getV r) ∧ t.pc = s.pc + 2 ∧ OnlyChanges [.V, .pc] s t) ∧
    (∃ t, exec (.shl x y) s = .next t ∧ (t.getV 15).toNat = (if 128 ≤ (s.getV x).toNat then 1 else 0) ∧
      (x ≠ 15 → (t.getV x).toNat = (2 * (s.getV x).toNat) % 256) ∧
      (∀ r, r ≠ x → r ≠ 15 → t.getV r = s.getV r) ∧ t.pc = s.pc + 2 ∧ OnlyChanges [.V, .pc] s t)

/-- 44_alu.md R143: the identities between the result and the flag, for x not 0xF. -/
def Obligations.ArithmeticIdentities : Prop :=
  ∀ (x y : RegNum) (s t : State), x ≠ 15 →
    (exec (.addReg x y) s = .next t →
      256 * (t.getV 15).toNat + (t.getV x).toNat = (s.getV x).toNat + (s.getV y).toNat) ∧
    (exec (.subReg x y) s = .next t →
      ((t.getV x).toNat - 256 * (1 - (t.getV 15).toNat) : Int) = (s.getV x).toNat - (s.getV y).toNat) ∧
    (exec (.subn x y) s = .next t →
      ((t.getV x).toNat - 256 * (1 - (t.getV 15).toNat) : Int) = (s.getV y).toNat - (s.getV x).toNat) ∧
    (exec (.shr x y) s = .next t → 2 * (t.getV x).toNat + (t.getV 15).toNat = (s.getV x).toNat) ∧
    (exec (.shl x y) s = .next t → 256 * (t.getV 15).toNat + (t.getV x).toNat = 2 * (s.getV x).toNat)

/-- 43_immediate.md R122 (the byte is an input: D16, log 1): Cxnn writes the random byte masked by nn, for every random byte; so the
result is at most nn and nothing with nn = 0. -/
def Obligations.RandomIsTheInputMasked : Prop :=
  ∀ (x : RegNum) (nn : Byte) (s : State),
    ∃ t, exec (.rnd x nn) s = .next t ∧
      (∀ k, (t.getV x).getLsbD k = (s.rnd.getLsbD k && nn.getLsbD k)) ∧ (t.getV x).toNat ≤ nn.toNat ∧
      (∀ r, r ≠ x → t.getV r = s.getV r) ∧ t.pc = s.pc + 2 ∧ OnlyChanges [.V, .pc] s t

/-! ### Index register and memory -/

/-- 45_index_memory.md R150, R151: Annn sets I to nnn; Fx1E adds Vx modulo 65536 with no flag and no fault. -/
def Obligations.IndexLoadAndAdd : Prop :=
  ∀ (x : RegNum) (nnn : BitVec 12) (s : State),
    EncodedAs 0xF000 0xA000 (.ldI nnn) ∧ EncodedAs 0xF0FF 0xF01E (.addI x) ∧
    (∃ t, exec (.ldI nnn) s = .next t ∧ t.I.toNat = nnn.toNat ∧ t.pc = s.pc + 2 ∧ OnlyChanges [.I, .pc] s t) ∧
    (∃ t, exec (.addI x) s = .next t ∧ t.I.toNat = (s.I.toNat + (s.getV x).toNat) % 65536 ∧
      t.pc = s.pc + 2 ∧ OnlyChanges [.I, .pc] s t)

/-- 45_index_memory.md R152 (the whole byte, no masking: D27, log 19): Fx29 sets I to 5 * Vx. -/
def Obligations.GlyphAddressIsFiveTimesVx : Prop :=
  ∀ (x : RegNum) (s : State),
    ∃ t, exec (.ldF x) s = .next t ∧ t.I.toNat = 5 * (s.getV x).toNat ∧ t.pc = s.pc + 2 ∧ OnlyChanges [.I, .pc] s t

/-- 45_index_memory.md R153, 20_memory.md R58 (digit order D15, the fault D3; logs 13, 4): Fx33 stores three decimal digits of Vx,
hundreds at I, and nothing else, or faults before the first byte. -/
def Obligations.BcdStoresThreeDigits : Prop :=
  ∀ (x : RegNum) (s : State), s.memory.wf = true →
    (0xFFF < s.I.toNat + 2 → exec (.ldB x) s = .fault (.memoryOutOfRange .data s.I 3)) ∧
    (s.I.toNat + 2 ≤ 0xFFF → ∃ t, exec (.ldB x) s = .next t ∧
      (t.memory.read s.I.toNat).toNat = (s.getV x).toNat / 100 ∧
      (t.memory.read (s.I.toNat + 1)).toNat = (s.getV x).toNat / 10 % 10 ∧
      (t.memory.read (s.I.toNat + 2)).toNat = (s.getV x).toNat % 10 ∧
      (∀ a, ¬ (s.I.toNat ≤ a ∧ a < s.I.toNat + 3) → t.memory.read a = s.memory.read a) ∧
      t.pc = s.pc + 2 ∧ OnlyChanges [.memory, .pc] s t)

/-- 45_index_memory.md R155, 20_memory.md R58 (the fault D3, log 4): Fx55 stores V0 to Vx from I upward and leaves every other byte, and
adds x + 1 to I; or faults before the first byte. -/
def Obligations.StoreRegistersFromIUpward : Prop :=
  ∀ (x : RegNum) (s : State), s.memory.wf = true →
    (0xFFF < s.I.toNat + x.val → exec (.storeRegs x) s = .fault (.memoryOutOfRange .data s.I (x.val + 1))) ∧
    (s.I.toNat + x.val ≤ 0xFFF → ∃ t, exec (.storeRegs x) s = .next t ∧
      (∀ r, r ≤ x → t.memory.read (s.I.toNat + r.val) = s.getV r) ∧
      (∀ a, ¬ (s.I.toNat ≤ a ∧ a ≤ s.I.toNat + x.val) → t.memory.read a = s.memory.read a) ∧
      t.I.toNat = s.I.toNat + x.val + 1 ∧ t.pc = s.pc + 2 ∧ OnlyChanges [.memory, .I, .pc] s t)

/-- 45_index_memory.md R156, 20_memory.md R58 (the fault D3, log 4): Fx65 loads V0 to Vx from I upward, leaves the higher registers,
and adds x + 1 to I; or faults before the first byte. -/
def Obligations.LoadRegistersFromIUpward : Prop :=
  ∀ (x : RegNum) (s : State),
    (0xFFF < s.I.toNat + x.val → exec (.loadRegs x) s = .fault (.memoryOutOfRange .data s.I (x.val + 1))) ∧
    (s.I.toNat + x.val ≤ 0xFFF → ∃ t, exec (.loadRegs x) s = .next t ∧
      (∀ r, t.getV r = if r ≤ x then s.memory.read (s.I.toNat + r.val) else s.getV r) ∧
      t.I.toNat = s.I.toNat + x.val + 1 ∧ t.pc = s.pc + 2 ∧ OnlyChanges [.V, .I, .pc] s t)

/-- 45_index_memory.md R157: after Fx55, an Fx65 with the same x, from a state whose I is what it was before and whose stored bytes
still stand, gives V0 to Vx back and I past the block; without restoring I it loads the bytes behind the block. -/
def Obligations.StoreThenLoadGivesRegistersBack : Prop :=
  ∀ (x : RegNum) (s t : State), s.memory.wf = true → exec (.storeRegs x) s = .next t →
    (∀ t' : State, t'.I = s.I →
      (∀ a, s.I.toNat ≤ a → a ≤ s.I.toNat + x.val → t'.memory.read a = t.memory.read a) →
      ∃ u, exec (.loadRegs x) t' = .next u ∧ (∀ r, r ≤ x → u.getV r = s.getV r) ∧
        u.I.toNat = s.I.toNat + x.val + 1) ∧
    (∀ u, exec (.loadRegs x) t = .next u →
      ∀ r, r ≤ x → u.getV r = s.memory.read (s.I.toNat + x.val + 1 + r.val))

/-- 20_memory.md R63: the bytes Fx55 stores over the next instruction are what the next fetch reads. -/
def Obligations.StoredBytesAreFetchedNext : Prop :=
  ∀ (x : RegNum) (s t : State), s.memory.wf = true → 1 ≤ x.val → s.I = s.pc + 2 → s.pc.toNat ≤ 0xFFC →
    exec (.storeRegs x) s = .next t → fetch t = .ok (s.getV 0 ++ s.getV 1)

/-! ### Display -/

/-- 46_display.md R170: `00E0` clears every pixel and sets drawFlag, whatever the screen held; VF is not written. -/
def Obligations.ClearBlanksTheScreen : Prop :=
  ∀ s : State, EncodedAs 0xFFFF 0x00E0 .cls ∧
    ∃ t, exec .cls s = .next t ∧ (∀ r c, t.framebuffer.pixel r c = false) ∧ t.drawFlag = true ∧
      t.pc = s.pc + 2 ∧ OnlyChanges [.framebuffer, .drawFlag, .pc] s t

/-- 46_display.md R171, R172 (axes and bit order D14, the bounds D5; logs 11, 12): Dxyn inverts exactly the positions the sprite sets,
VF is 1 exactly when one of them was set, drawFlag is set; n = 0 draws nothing. -/
def Obligations.DrawInvertsTheSpritePositions : Prop :=
  ∀ (x y : RegNum) (n : BitVec 4) (s : State),
    (n.toNat = 0 ∨ s.I.toNat + n.toNat - 1 ≤ 0xFFF) → (∀ r c, SpriteSets x y n s r c → r ≤ 31 ∧ c ≤ 63) →
    ∃ t, exec (.drw x y n) s = .next t ∧
      (∀ r c, r ≤ 31 → c ≤ 63 →
        (t.framebuffer.pixel r c = true ↔ ¬ (s.framebuffer.pixel r c = true ↔ SpriteSets x y n s r c))) ∧
      ((∃ r c, SpriteSets x y n s r c ∧ s.framebuffer.pixel r c = true) → t.getV 15 = 1) ∧
      ((∀ r c, SpriteSets x y n s r c → s.framebuffer.pixel r c = false) → t.getV 15 = 0) ∧
      (∀ r, r ≠ 15 → t.getV r = s.getV r) ∧ t.drawFlag = true ∧ t.pc = s.pc + 2 ∧
      OnlyChanges [.V, .framebuffer, .drawFlag, .pc] s t

/-- 46_display.md R171, R173, 60_exceptions.md R208 (D3, D5, D6; logs 4, 11, 17): sprite rows beyond memory fault first; then one position
to be set beyond column 63 or row 31. -/
def Obligations.DrawOutOfBoundsFaults : Prop :=
  ∀ (x y : RegNum) (n : BitVec 4) (s : State),
    (0 < n.toNat → 0xFFF < s.I.toNat + n.toNat - 1 →
      exec (.drw x y n) s = .fault (.memoryOutOfRange .data s.I n.toNat)) ∧
    ((n.toNat = 0 ∨ s.I.toNat + n.toNat - 1 ≤ 0xFFF) → (∃ r c, SpriteSets x y n s r c ∧ (31 < r ∨ 63 < c)) →
      exec (.drw x y n) s = .fault (.framebufferOutOfRange (s.getV x) (s.getV y)))

/-- 46_display.md R174: the same draw twice restores the screen; the second reports VF = 1 exactly when the first turned some pixel on.
The premise covers x = 0xF and y = 0xF where the first draw leaves VF at the coordinate. -/
def Obligations.DrawTwiceRestoresTheScreen : Prop :=
  ∀ (x y : RegNum) (n : BitVec 4) (s t : State), exec (.drw x y n) s = .next t →
    t.getV x = s.getV x → t.getV y = s.getV y →
    ∃ u, exec (.drw x y n) t = .next u ∧ u.framebuffer = s.framebuffer ∧
      (u.getV 15 = 1 ↔ ∃ r c, SpriteSets x y n s r c ∧ s.framebuffer.pixel r c = false)

/-! ### Keypad -/

/-- 47_keypad.md R180 to R182 (the fault is D7, log 18): Ex9E skips when key Vx is pressed, ExA1 when it is not; a Vx above 15 faults. -/
def Obligations.KeySkipsTestTheSnapshot : Prop :=
  ∀ (x : RegNum) (s : State),
    (15 < (s.getV x).toNat →
      exec (.skp x) s = .fault (.keyIndexOutOfRange (s.getV x)) ∧
      exec (.sknp x) s = .fault (.keyIndexOutOfRange (s.getV x))) ∧
    ((s.getV x).toNat ≤ 15 →
      (∃ t, exec (.skp x) s = .next t ∧
        t.pc = (if s.keys.getLsbD (s.getV x).toNat = true then s.pc + 4 else s.pc + 2) ∧ OnlyChanges [.pc] s t) ∧
      (∃ t, exec (.sknp x) s = .next t ∧
        t.pc = (if s.keys.getLsbD (s.getV x).toNat = true then s.pc + 2 else s.pc + 4) ∧ OnlyChanges [.pc] s t))

/-- 47_keypad.md R183 (level and lowest key D8, log 10): with a key pressed Fx0A writes the lowest pressed key's number and goes on. -/
def Obligations.KeyReadTakesTheLowestPressed : Prop :=
  ∀ (x : RegNum) (s : State), s.keys ≠ 0 →
    ∃ t k, exec (.ldVxK x) s = .next t ∧ k < 16 ∧ s.keys.getLsbD k = true ∧ (∀ j, j < k → s.keys.getLsbD j = false) ∧
      (∀ r, (t.getV r).toNat = if r = x then k else (s.getV r).toNat) ∧ t.pc = s.pc + 2 ∧ OnlyChanges [.V, .pc] s t

/-- 47_keypad.md R183, R184, 40_fetch_decode.md R95 (the answer's form is log 3): with no key pressed a step that reaches Fx0A answers
WaitingForKey and changes nothing; no other step answers it. -/
def Obligations.WaitingChangesNothing : Prop :=
  ∀ (s : State) (keys : Word) (rnd : Byte),
    (∀ x, fetch s = .ok (encode (.ldVxK x)) → keys = 0 →
      perform (.step keys rnd) s = (s.present keys rnd, .waitingForKey)) ∧
    ((perform (.step keys rnd) s).2 = .waitingForKey → keys = 0 ∧ ∃ x, fetch s = .ok (encode (.ldVxK x)))

/-! ### Timers and the environment's operations -/

/-- 48_timer_instr.md R190, R191: Fx07 copies the delay timer to Vx, Fx15 copies Vx to the delay timer. -/
def Obligations.DelayTimerIsReadAndWritten : Prop :=
  ∀ (x : RegNum) (s : State),
    EncodedAs 0xF0FF 0xF007 (.ldVxDT x) ∧ EncodedAs 0xF0FF 0xF015 (.ldDTVx x) ∧
    (∃ t, exec (.ldVxDT x) s = .next t ∧ (∀ r, t.getV r = if r = x then s.delayTimer else s.getV r) ∧
      t.pc = s.pc + 2 ∧ OnlyChanges [.V, .pc] s t) ∧
    (∃ t, exec (.ldDTVx x) s = .next t ∧ t.delayTimer = s.getV x ∧ t.pc = s.pc + 2 ∧ OnlyChanges [.delayTimer, .pc] s t)

/-- 48_timer_instr.md R192, 60_exceptions.md R214 (D20, log 23): Fx18 copies Vx to the sound timer, sound_active follows at once,
and the next tick, not this step, gives the first pulse. -/
def Obligations.SoundTimerIsWritten : Prop :=
  ∀ (x : RegNum) (s : State),
    ∃ t, exec (.ldSTVx x) s = .next t ∧ t.soundTimer = s.getV x ∧
      (t.soundActive = true ↔ 0 < (s.getV x).toNat) ∧ t.pc = s.pc + 2 ∧ OnlyChanges [.soundTimer, .pc] s t ∧
      ∃ u out, perform .tick t = (u, .ticked out) ∧ (out.tonePlay = true ↔ 2 ≤ (s.getV x).toNat) ∧
        (out.toneStop = true ↔ (s.getV x).toNat = 1)

/-- 60_exceptions.md R211, R212: a tick takes each nonzero timer one down and touches nothing else; tone_stop exactly when the sound timer
goes from 1 to 0, tone_play exactly when it stays above 0. -/
def Obligations.TickDecrementsAndSignals : Prop :=
  ∀ s : State, ∃ t out, perform .tick s = (t, .ticked out) ∧
    t.delayTimer.toNat = s.delayTimer.toNat - 1 ∧ t.soundTimer.toNat = s.soundTimer.toNat - 1 ∧
    (out.toneStop = true ↔ s.soundTimer.toNat = 1) ∧ (out.tonePlay = true ↔ 0 < t.soundTimer.toNat) ∧
    OnlyChanges [.delayTimer, .soundTimer] s t

/-- 60_exceptions.md R217: k ticks take a timer from v to max(v - k, 0), never below 0; 60 ticks from 60 give exactly 0, ticks 1 to 59
playing and tick 60 stopping. -/
def Obligations.TicksCountDownToZero : Prop :=
  ∀ (k : Nat) (s : State),
    (State.tickTimes k s).1.delayTimer.toNat = s.delayTimer.toNat - k ∧
    (State.tickTimes k s).1.soundTimer.toNat = s.soundTimer.toNat - k ∧
    OnlyChanges [.delayTimer, .soundTimer] s (State.tickTimes k s).1 ∧
    (∀ j, j < k → ∃ out, (State.tickTimes k s).2[j]? = some out ∧
      (out.tonePlay = true ↔ j + 2 ≤ s.soundTimer.toNat) ∧ (out.toneStop = true ↔ s.soundTimer.toNat = j + 1)) ∧
    (s.delayTimer = 60 → k = 60 → (State.tickTimes k s).1.delayTimer = 0) ∧
    (s.soundTimer = 60 → k = 60 → (State.tickTimes k s).1.soundTimer = 0)

/-- 48_timer_instr.md R193: the delay timer never rises in a step that does not load it, whatever ticks come with the step. -/
def Obligations.DelayTimerRisesOnlyByItsLoad : Prop :=
  ∀ s t : State, step s = .next t → (∀ x, fetch s ≠ .ok (encode (.ldDTVx x))) →
    t.delayTimer.toNat ≤ s.delayTimer.toNat

/-- 60_exceptions.md R223: take_draw_flag answers the flag that the level output shows, clears it, and changes nothing else; no
other operation and no instruction clears the flag, and when the environment takes it makes no difference to any other component. -/
def Obligations.TakingTheDrawFlagClearsIt : Prop :=
  (∀ s : State, ∃ t, perform .takeDrawFlag s = (t, .drawFlagWas s.drawFlagLevel) ∧ s.drawFlagLevel = s.drawFlag ∧
    t.drawFlag = false ∧ OnlyChanges [.drawFlag] s t) ∧
  (∀ (op : Op) (s : State), op ≠ .takeDrawFlag → s.drawFlag = true → (perform op s).1.drawFlag = true) ∧
  ∀ (i : Instr) (s t : State), exec i s = .next t →
    (s.drawFlag = true → t.drawFlag = true) ∧
    ∃ t', exec i (perform .takeDrawFlag s).1 = .next t' ∧ OnlyChanges [.drawFlag] t t'

/-- 10_state.md R36, 70_reset_and_hazards.md R240, R241: reset gives every component its reset value whatever the state before, the font's
80 bytes at 0x000 and zeros elsewhere; twice is the same as once. The clause `SameEnvironment`, that the input ports and the model's own
`pending` and `drawn` stay through a reset, is the model's choice (log 20) and in none of these rules. -/
def Obligations.ResetInstallsTheResetState : Prop :=
  ∀ s : State, ∃ t, perform .reset s = (t, .resetDone) ∧
    Config.hw.font.length = 80 ∧ (∀ a : Fin 80, Config.hw.font[a.val]? = some (t.memory.read a.val)) ∧
    (∀ a, 80 ≤ a → a < 4096 → t.memory.read a = 0) ∧
    (∀ r, t.getV r = 0) ∧ t.I = 0 ∧ t.pc = 0x200 ∧ (∀ k : Fin 16, t.stack[k] = 0) ∧ t.sp = 0 ∧
    t.delayTimer = 0 ∧ t.soundTimer = 0 ∧ (∀ r c, t.framebuffer.pixel r c = false) ∧ t.drawFlag = true ∧
    SameEnvironment s t ∧ perform .reset t = (t, .resetDone)

/-- 70_reset_and_hazards.md R243, R244: load refuses more than 3584 bytes and changes nothing; else the bytes stand from 0x200 upward and
nothing else changed, pc included. -/
def Obligations.LoadCopiesTheProgram : Prop :=
  ∀ (bytes : List Byte) (s : State), s.memory.wf = true →
    (3584 < bytes.length → perform (.load bytes) s = (s, .programTooLarge)) ∧
    (bytes.length ≤ 3584 → ∃ t, perform (.load bytes) s = (t, .loadOk) ∧
      (∀ i, i < bytes.length → some (t.memory.read (0x200 + i)) = bytes[i]?) ∧
      (∀ a, ¬ (0x200 ≤ a ∧ a < 0x200 + bytes.length) → t.memory.read a = s.memory.read a) ∧
      OnlyChanges [.memory] s t)

/-- 70_reset_and_hazards.md R242: reset answers nothing, ends the level output of the sound and raises draw_flag; right after it, with
nothing loaded, a step faults on the zero word at 0x200. -/
def Obligations.StepAfterBareResetFaults : Prop :=
  ∀ s : State, ∃ t, perform .reset s = (t, .resetDone) ∧ t.soundActive = false ∧ t.drawFlagLevel = true ∧
    step t = .fault (.unknownOpcode 0x0000 0x200)

/-- 70_reset_and_hazards.md R255, 41_flow.md R100 (the end of a run is D22): a jump to itself repeats for ever and changes no state, ticks
apart. -/
def Obligations.SelfJumpSpins : Prop :=
  ∀ s : State, EndsInSelfJump s →
    cycle s = .next s ∧ ∃ t, step s = .next t ∧ EndsInSelfJump t ∧ t = s.environment
end

