-- ==== Sys2Proof/Laws/Decode.lean ====
section
/-! SUPPORT. The fields of a word put together from digits, a word put back together from its fields, and the byte order:
what proofs about decoding cite instead of unfolding slices. -/

namespace Sys2Proof

/-- The fields of a word written as fixed digit and twelve bits. -/
theorem fields_of_addr {w : Word} (op : BitVec 4) (f : BitVec 12) (h : w = op ++ f) : opField w = op ∧ nnnField w = f := by
  subst h
  constructor <;>
    · apply BitVec.eq_of_getLsbD_eq
      intro k hk
      simp only [opField, nnnField, BitVec.getLsbD_extractLsb', BitVec.getLsbD_append]
      interval_cases k <;> simp

/-- The fields of a word written as two digits and a byte. -/
theorem fields_of_byte {w : Word} (op x : BitVec 4) (b : Byte) (h : w = op ++ x ++ b) :
    opField w = op ∧ xField w = x.toFin ∧ nnField w = b := by
  subst h
  refine ⟨?_, congrArg BitVec.toFin ?_, ?_⟩ <;>
    · apply BitVec.eq_of_getLsbD_eq
      intro k hk
      simp only [opField, nnField, BitVec.getLsbD_extractLsb', BitVec.getLsbD_append]
      interval_cases k <;> simp

/-- The fields of a word written as four digits. -/
theorem fields_of_digits {w : Word} (op x y n : BitVec 4) (h : w = op ++ x ++ y ++ n) :
    opField w = op ∧ xField w = x.toFin ∧ yField w = y.toFin ∧ nField w = n := by
  subst h
  refine ⟨?_, congrArg BitVec.toFin ?_, congrArg BitVec.toFin ?_, ?_⟩ <;>
    · apply BitVec.eq_of_getLsbD_eq
      intro k hk
      simp only [opField, nField, BitVec.getLsbD_extractLsb', BitVec.getLsbD_append]
      interval_cases k <;> simp

/-- A word is its first digit and its low twelve bits. -/
theorem word_eq_addr (w : Word) : w = opField w ++ nnnField w := by
  apply BitVec.eq_of_getLsbD_eq
  intro k hk
  simp only [opField, nnnField, BitVec.getLsbD_append, BitVec.getLsbD_extractLsb']
  interval_cases k <;> simp

/-- A word is its first digit, its register digit and its low byte. -/
theorem word_eq_byte (w : Word) : w = opField w ++ regBits (xField w) ++ nnField w := by
  apply BitVec.eq_of_getLsbD_eq
  intro k hk
  simp only [opField, regBits, xField, nnField, BitVec.ofFin_toFin, BitVec.getLsbD_append, BitVec.getLsbD_extractLsb']
  interval_cases k <;> simp

/-- A word is its four digits. -/
theorem word_eq_digits (w : Word) :
    w = opField w ++ regBits (xField w) ++ regBits (yField w) ++ nField w := by
  apply BitVec.eq_of_getLsbD_eq
  intro k hk
  simp only [opField, regBits, xField, yField, nField, BitVec.ofFin_toFin, BitVec.getLsbD_append,
    BitVec.getLsbD_extractLsb']
  interval_cases k <;> simp

@[simp] theorem regBits_toFin (r : RegNum) : (regBits r).toFin = r := rfl

/-- Laying a word out and reading it back gives the word (20_memory.md R54). -/
theorem wordOfBytes_bytesOfWord (w : Word) : wordOfBytes (w.extractLsb' 8 8) (w.extractLsb' 0 8) = w := by
  apply BitVec.eq_of_getLsbD_eq
  intro k hk
  simp only [wordOfBytes, BitVec.getLsbD_append, BitVec.getLsbD_extractLsb']
  interval_cases k <;> simp

/-- High byte first, as numbers (20_memory.md R54). -/
theorem wordOfBytes_toNat (hi lo : Byte) : (wordOfBytes hi lo).toNat = 256 * hi.toNat + lo.toNat := by
  have h := lo.isLt
  have e : (wordOfBytes hi lo).toNat = hi.toNat <<< 8 ||| lo.toNat := BitVec.toNat_append hi lo
  rw [e, Nat.shiftLeft_eq, Nat.mul_comm, show (2 : Nat) ^ 8 * hi.toNat = hi.toNat <<< 8 by
    rw [Nat.shiftLeft_eq, Nat.mul_comm], ← Nat.shiftLeft_add_eq_or_of_lt (by simpa using h), Nat.shiftLeft_eq]
  omega

/-- Everything `decode` does on two bytes or more. -/
theorem decode_cons (hi lo : Byte) (rest : List Byte) :
    decode (hi :: lo :: rest) =
      match decodeWord (wordOfBytes hi lo) with
      | some i => .ok (i, rest)
      | none => .error (.unknownOpcode (wordOfBytes hi lo)) := rfl

/-- The table's numbering reads the word itself, cut to its bits. -/
theorem decodeTableWord_eq (nbits w : Nat) :
    decodeTableWord nbits w = decodeWord (BitVec.ofNat 16 (w % 2 ^ nbits)) := by
  unfold decodeTableWord bytesOfWord
  rw [decode_cons, wordOfBytes_bytesOfWord]
  cases decodeWord (BitVec.ofNat 16 (w % 2 ^ nbits)) <;> rfl

end Sys2Proof
end

