-- ==== Sys2Proof/Laws/State.lean ====
section
/-! SUPPORT. One lemma per field per update of the state, true by unfolding, so that no later proof unfolds a record
update. -/

namespace Sys2Proof.Machine

/-! ### setV -/

@[simp] theorem State.setV_memory (s : State) (r : RegNum) (b : Byte) : (s.setV r b).memory = s.memory := rfl
@[simp] theorem State.setV_V (s : State) (r : RegNum) (b : Byte) : (s.setV r b).V = s.V.set r b := rfl
@[simp] theorem State.setV_I (s : State) (r : RegNum) (b : Byte) : (s.setV r b).I = s.I := rfl
@[simp] theorem State.setV_pc (s : State) (r : RegNum) (b : Byte) : (s.setV r b).pc = s.pc := rfl
@[simp] theorem State.setV_stack (s : State) (r : RegNum) (b : Byte) : (s.setV r b).stack = s.stack := rfl
@[simp] theorem State.setV_sp (s : State) (r : RegNum) (b : Byte) : (s.setV r b).sp = s.sp := rfl
@[simp] theorem State.setV_delayTimer (s : State) (r : RegNum) (b : Byte) : (s.setV r b).delayTimer = s.delayTimer := rfl
@[simp] theorem State.setV_soundTimer (s : State) (r : RegNum) (b : Byte) : (s.setV r b).soundTimer = s.soundTimer := rfl
@[simp] theorem State.setV_framebuffer (s : State) (r : RegNum) (b : Byte) : (s.setV r b).framebuffer = s.framebuffer := rfl
@[simp] theorem State.setV_drawFlag (s : State) (r : RegNum) (b : Byte) : (s.setV r b).drawFlag = s.drawFlag := rfl
@[simp] theorem State.setV_keys (s : State) (r : RegNum) (b : Byte) : (s.setV r b).keys = s.keys := rfl
@[simp] theorem State.setV_rnd (s : State) (r : RegNum) (b : Byte) : (s.setV r b).rnd = s.rnd := rfl
@[simp] theorem State.setV_pending (s : State) (r : RegNum) (b : Byte) : (s.setV r b).pending = s.pending := rfl
@[simp] theorem State.setV_drawn (s : State) (r : RegNum) (b : Byte) : (s.setV r b).drawn = s.drawn := rfl

/-! ### setAllV -/

@[simp] theorem State.setAllV_memory (s : State) (v : Vector Byte 16) : (s.setAllV v).memory = s.memory := rfl
@[simp] theorem State.setAllV_V (s : State) (v : Vector Byte 16) : (s.setAllV v).V = v := rfl
@[simp] theorem State.setAllV_I (s : State) (v : Vector Byte 16) : (s.setAllV v).I = s.I := rfl
@[simp] theorem State.setAllV_pc (s : State) (v : Vector Byte 16) : (s.setAllV v).pc = s.pc := rfl
@[simp] theorem State.setAllV_stack (s : State) (v : Vector Byte 16) : (s.setAllV v).stack = s.stack := rfl
@[simp] theorem State.setAllV_sp (s : State) (v : Vector Byte 16) : (s.setAllV v).sp = s.sp := rfl
@[simp] theorem State.setAllV_delayTimer (s : State) (v : Vector Byte 16) : (s.setAllV v).delayTimer = s.delayTimer := rfl
@[simp] theorem State.setAllV_soundTimer (s : State) (v : Vector Byte 16) : (s.setAllV v).soundTimer = s.soundTimer := rfl
@[simp] theorem State.setAllV_framebuffer (s : State) (v : Vector Byte 16) : (s.setAllV v).framebuffer = s.framebuffer := rfl
@[simp] theorem State.setAllV_drawFlag (s : State) (v : Vector Byte 16) : (s.setAllV v).drawFlag = s.drawFlag := rfl
@[simp] theorem State.setAllV_keys (s : State) (v : Vector Byte 16) : (s.setAllV v).keys = s.keys := rfl
@[simp] theorem State.setAllV_rnd (s : State) (v : Vector Byte 16) : (s.setAllV v).rnd = s.rnd := rfl
@[simp] theorem State.setAllV_pending (s : State) (v : Vector Byte 16) : (s.setAllV v).pending = s.pending := rfl
@[simp] theorem State.setAllV_drawn (s : State) (v : Vector Byte 16) : (s.setAllV v).drawn = s.drawn := rfl

/-! ### setPc -/

@[simp] theorem State.setPc_memory (s : State) (a : Word) : (s.setPc a).memory = s.memory := rfl
@[simp] theorem State.setPc_V (s : State) (a : Word) : (s.setPc a).V = s.V := rfl
@[simp] theorem State.setPc_I (s : State) (a : Word) : (s.setPc a).I = s.I := rfl
@[simp] theorem State.setPc_pc (s : State) (a : Word) : (s.setPc a).pc = a := rfl
@[simp] theorem State.setPc_stack (s : State) (a : Word) : (s.setPc a).stack = s.stack := rfl
@[simp] theorem State.setPc_sp (s : State) (a : Word) : (s.setPc a).sp = s.sp := rfl
@[simp] theorem State.setPc_delayTimer (s : State) (a : Word) : (s.setPc a).delayTimer = s.delayTimer := rfl
@[simp] theorem State.setPc_soundTimer (s : State) (a : Word) : (s.setPc a).soundTimer = s.soundTimer := rfl
@[simp] theorem State.setPc_framebuffer (s : State) (a : Word) : (s.setPc a).framebuffer = s.framebuffer := rfl
@[simp] theorem State.setPc_drawFlag (s : State) (a : Word) : (s.setPc a).drawFlag = s.drawFlag := rfl
@[simp] theorem State.setPc_keys (s : State) (a : Word) : (s.setPc a).keys = s.keys := rfl
@[simp] theorem State.setPc_rnd (s : State) (a : Word) : (s.setPc a).rnd = s.rnd := rfl
@[simp] theorem State.setPc_pending (s : State) (a : Word) : (s.setPc a).pending = s.pending := rfl
@[simp] theorem State.setPc_drawn (s : State) (a : Word) : (s.setPc a).drawn = s.drawn := rfl

/-! ### advance -/

@[simp] theorem State.advance_memory (s : State) : (s.advance).memory = s.memory := rfl
@[simp] theorem State.advance_V (s : State) : (s.advance).V = s.V := rfl
@[simp] theorem State.advance_I (s : State) : (s.advance).I = s.I := rfl
@[simp] theorem State.advance_pc (s : State) : (s.advance).pc = s.pc + 2 := rfl
@[simp] theorem State.advance_stack (s : State) : (s.advance).stack = s.stack := rfl
@[simp] theorem State.advance_sp (s : State) : (s.advance).sp = s.sp := rfl
@[simp] theorem State.advance_delayTimer (s : State) : (s.advance).delayTimer = s.delayTimer := rfl
@[simp] theorem State.advance_soundTimer (s : State) : (s.advance).soundTimer = s.soundTimer := rfl
@[simp] theorem State.advance_framebuffer (s : State) : (s.advance).framebuffer = s.framebuffer := rfl
@[simp] theorem State.advance_drawFlag (s : State) : (s.advance).drawFlag = s.drawFlag := rfl
@[simp] theorem State.advance_keys (s : State) : (s.advance).keys = s.keys := rfl
@[simp] theorem State.advance_rnd (s : State) : (s.advance).rnd = s.rnd := rfl
@[simp] theorem State.advance_pending (s : State) : (s.advance).pending = s.pending := rfl
@[simp] theorem State.advance_drawn (s : State) : (s.advance).drawn = s.drawn := rfl

/-! ### skipIf -/

@[simp] theorem State.skipIf_memory (s : State) (c : Bool) : (s.skipIf c).memory = s.memory := rfl
@[simp] theorem State.skipIf_V (s : State) (c : Bool) : (s.skipIf c).V = s.V := rfl
@[simp] theorem State.skipIf_I (s : State) (c : Bool) : (s.skipIf c).I = s.I := rfl
@[simp] theorem State.skipIf_pc (s : State) (c : Bool) : (s.skipIf c).pc = (if c then s.pc + 4 else s.pc + 2) := rfl
@[simp] theorem State.skipIf_stack (s : State) (c : Bool) : (s.skipIf c).stack = s.stack := rfl
@[simp] theorem State.skipIf_sp (s : State) (c : Bool) : (s.skipIf c).sp = s.sp := rfl
@[simp] theorem State.skipIf_delayTimer (s : State) (c : Bool) : (s.skipIf c).delayTimer = s.delayTimer := rfl
@[simp] theorem State.skipIf_soundTimer (s : State) (c : Bool) : (s.skipIf c).soundTimer = s.soundTimer := rfl
@[simp] theorem State.skipIf_framebuffer (s : State) (c : Bool) : (s.skipIf c).framebuffer = s.framebuffer := rfl
@[simp] theorem State.skipIf_drawFlag (s : State) (c : Bool) : (s.skipIf c).drawFlag = s.drawFlag := rfl
@[simp] theorem State.skipIf_keys (s : State) (c : Bool) : (s.skipIf c).keys = s.keys := rfl
@[simp] theorem State.skipIf_rnd (s : State) (c : Bool) : (s.skipIf c).rnd = s.rnd := rfl
@[simp] theorem State.skipIf_pending (s : State) (c : Bool) : (s.skipIf c).pending = s.pending := rfl
@[simp] theorem State.skipIf_drawn (s : State) (c : Bool) : (s.skipIf c).drawn = s.drawn := rfl

/-! ### setI -/

@[simp] theorem State.setI_memory (s : State) (a : Word) : (s.setI a).memory = s.memory := rfl
@[simp] theorem State.setI_V (s : State) (a : Word) : (s.setI a).V = s.V := rfl
@[simp] theorem State.setI_I (s : State) (a : Word) : (s.setI a).I = a := rfl
@[simp] theorem State.setI_pc (s : State) (a : Word) : (s.setI a).pc = s.pc := rfl
@[simp] theorem State.setI_stack (s : State) (a : Word) : (s.setI a).stack = s.stack := rfl
@[simp] theorem State.setI_sp (s : State) (a : Word) : (s.setI a).sp = s.sp := rfl
@[simp] theorem State.setI_delayTimer (s : State) (a : Word) : (s.setI a).delayTimer = s.delayTimer := rfl
@[simp] theorem State.setI_soundTimer (s : State) (a : Word) : (s.setI a).soundTimer = s.soundTimer := rfl
@[simp] theorem State.setI_framebuffer (s : State) (a : Word) : (s.setI a).framebuffer = s.framebuffer := rfl
@[simp] theorem State.setI_drawFlag (s : State) (a : Word) : (s.setI a).drawFlag = s.drawFlag := rfl
@[simp] theorem State.setI_keys (s : State) (a : Word) : (s.setI a).keys = s.keys := rfl
@[simp] theorem State.setI_rnd (s : State) (a : Word) : (s.setI a).rnd = s.rnd := rfl
@[simp] theorem State.setI_pending (s : State) (a : Word) : (s.setI a).pending = s.pending := rfl
@[simp] theorem State.setI_drawn (s : State) (a : Word) : (s.setI a).drawn = s.drawn := rfl

/-! ### setDelay -/

@[simp] theorem State.setDelay_memory (s : State) (b : Byte) : (s.setDelay b).memory = s.memory := rfl
@[simp] theorem State.setDelay_V (s : State) (b : Byte) : (s.setDelay b).V = s.V := rfl
@[simp] theorem State.setDelay_I (s : State) (b : Byte) : (s.setDelay b).I = s.I := rfl
@[simp] theorem State.setDelay_pc (s : State) (b : Byte) : (s.setDelay b).pc = s.pc := rfl
@[simp] theorem State.setDelay_stack (s : State) (b : Byte) : (s.setDelay b).stack = s.stack := rfl
@[simp] theorem State.setDelay_sp (s : State) (b : Byte) : (s.setDelay b).sp = s.sp := rfl
@[simp] theorem State.setDelay_delayTimer (s : State) (b : Byte) : (s.setDelay b).delayTimer = b := rfl
@[simp] theorem State.setDelay_soundTimer (s : State) (b : Byte) : (s.setDelay b).soundTimer = s.soundTimer := rfl
@[simp] theorem State.setDelay_framebuffer (s : State) (b : Byte) : (s.setDelay b).framebuffer = s.framebuffer := rfl
@[simp] theorem State.setDelay_drawFlag (s : State) (b : Byte) : (s.setDelay b).drawFlag = s.drawFlag := rfl
@[simp] theorem State.setDelay_keys (s : State) (b : Byte) : (s.setDelay b).keys = s.keys := rfl
@[simp] theorem State.setDelay_rnd (s : State) (b : Byte) : (s.setDelay b).rnd = s.rnd := rfl
@[simp] theorem State.setDelay_pending (s : State) (b : Byte) : (s.setDelay b).pending = s.pending := rfl
@[simp] theorem State.setDelay_drawn (s : State) (b : Byte) : (s.setDelay b).drawn = s.drawn := rfl

/-! ### setSound -/

@[simp] theorem State.setSound_memory (s : State) (b : Byte) : (s.setSound b).memory = s.memory := rfl
@[simp] theorem State.setSound_V (s : State) (b : Byte) : (s.setSound b).V = s.V := rfl
@[simp] theorem State.setSound_I (s : State) (b : Byte) : (s.setSound b).I = s.I := rfl
@[simp] theorem State.setSound_pc (s : State) (b : Byte) : (s.setSound b).pc = s.pc := rfl
@[simp] theorem State.setSound_stack (s : State) (b : Byte) : (s.setSound b).stack = s.stack := rfl
@[simp] theorem State.setSound_sp (s : State) (b : Byte) : (s.setSound b).sp = s.sp := rfl
@[simp] theorem State.setSound_delayTimer (s : State) (b : Byte) : (s.setSound b).delayTimer = s.delayTimer := rfl
@[simp] theorem State.setSound_soundTimer (s : State) (b : Byte) : (s.setSound b).soundTimer = b := rfl
@[simp] theorem State.setSound_framebuffer (s : State) (b : Byte) : (s.setSound b).framebuffer = s.framebuffer := rfl
@[simp] theorem State.setSound_drawFlag (s : State) (b : Byte) : (s.setSound b).drawFlag = s.drawFlag := rfl
@[simp] theorem State.setSound_keys (s : State) (b : Byte) : (s.setSound b).keys = s.keys := rfl
@[simp] theorem State.setSound_rnd (s : State) (b : Byte) : (s.setSound b).rnd = s.rnd := rfl
@[simp] theorem State.setSound_pending (s : State) (b : Byte) : (s.setSound b).pending = s.pending := rfl
@[simp] theorem State.setSound_drawn (s : State) (b : Byte) : (s.setSound b).drawn = s.drawn := rfl

/-! ### setScreen -/

@[simp] theorem State.setScreen_memory (s : State) (fb : Framebuffer) : (s.setScreen fb).memory = s.memory := rfl
@[simp] theorem State.setScreen_V (s : State) (fb : Framebuffer) : (s.setScreen fb).V = s.V := rfl
@[simp] theorem State.setScreen_I (s : State) (fb : Framebuffer) : (s.setScreen fb).I = s.I := rfl
@[simp] theorem State.setScreen_pc (s : State) (fb : Framebuffer) : (s.setScreen fb).pc = s.pc := rfl
@[simp] theorem State.setScreen_stack (s : State) (fb : Framebuffer) : (s.setScreen fb).stack = s.stack := rfl
@[simp] theorem State.setScreen_sp (s : State) (fb : Framebuffer) : (s.setScreen fb).sp = s.sp := rfl
@[simp] theorem State.setScreen_delayTimer (s : State) (fb : Framebuffer) : (s.setScreen fb).delayTimer = s.delayTimer := rfl
@[simp] theorem State.setScreen_soundTimer (s : State) (fb : Framebuffer) : (s.setScreen fb).soundTimer = s.soundTimer := rfl
@[simp] theorem State.setScreen_framebuffer (s : State) (fb : Framebuffer) : (s.setScreen fb).framebuffer = fb := rfl
@[simp] theorem State.setScreen_drawFlag (s : State) (fb : Framebuffer) : (s.setScreen fb).drawFlag = true := rfl
@[simp] theorem State.setScreen_keys (s : State) (fb : Framebuffer) : (s.setScreen fb).keys = s.keys := rfl
@[simp] theorem State.setScreen_rnd (s : State) (fb : Framebuffer) : (s.setScreen fb).rnd = s.rnd := rfl
@[simp] theorem State.setScreen_pending (s : State) (fb : Framebuffer) : (s.setScreen fb).pending = s.pending := rfl
@[simp] theorem State.setScreen_drawn (s : State) (fb : Framebuffer) : (s.setScreen fb).drawn = s.drawn := rfl

/-! ### setMemory -/

@[simp] theorem State.setMemory_memory (s : State) (m : Memory) : (s.setMemory m).memory = m := rfl
@[simp] theorem State.setMemory_V (s : State) (m : Memory) : (s.setMemory m).V = s.V := rfl
@[simp] theorem State.setMemory_I (s : State) (m : Memory) : (s.setMemory m).I = s.I := rfl
@[simp] theorem State.setMemory_pc (s : State) (m : Memory) : (s.setMemory m).pc = s.pc := rfl
@[simp] theorem State.setMemory_stack (s : State) (m : Memory) : (s.setMemory m).stack = s.stack := rfl
@[simp] theorem State.setMemory_sp (s : State) (m : Memory) : (s.setMemory m).sp = s.sp := rfl
@[simp] theorem State.setMemory_delayTimer (s : State) (m : Memory) : (s.setMemory m).delayTimer = s.delayTimer := rfl
@[simp] theorem State.setMemory_soundTimer (s : State) (m : Memory) : (s.setMemory m).soundTimer = s.soundTimer := rfl
@[simp] theorem State.setMemory_framebuffer (s : State) (m : Memory) : (s.setMemory m).framebuffer = s.framebuffer := rfl
@[simp] theorem State.setMemory_drawFlag (s : State) (m : Memory) : (s.setMemory m).drawFlag = s.drawFlag := rfl
@[simp] theorem State.setMemory_keys (s : State) (m : Memory) : (s.setMemory m).keys = s.keys := rfl
@[simp] theorem State.setMemory_rnd (s : State) (m : Memory) : (s.setMemory m).rnd = s.rnd := rfl
@[simp] theorem State.setMemory_pending (s : State) (m : Memory) : (s.setMemory m).pending = s.pending := rfl
@[simp] theorem State.setMemory_drawn (s : State) (m : Memory) : (s.setMemory m).drawn = s.drawn := rfl

/-! ### push -/

@[simp] theorem State.push_memory (s : State) (a : Word) : (s.push a).memory = s.memory := rfl
@[simp] theorem State.push_V (s : State) (a : Word) : (s.push a).V = s.V := rfl
@[simp] theorem State.push_I (s : State) (a : Word) : (s.push a).I = s.I := rfl
@[simp] theorem State.push_pc (s : State) (a : Word) : (s.push a).pc = s.pc := rfl
@[simp] theorem State.push_stack (s : State) (a : Word) : (s.push a).stack = s.stack.setIfInBounds s.sp.toNat a := rfl
@[simp] theorem State.push_sp (s : State) (a : Word) : (s.push a).sp = s.sp + 1 := rfl
@[simp] theorem State.push_delayTimer (s : State) (a : Word) : (s.push a).delayTimer = s.delayTimer := rfl
@[simp] theorem State.push_soundTimer (s : State) (a : Word) : (s.push a).soundTimer = s.soundTimer := rfl
@[simp] theorem State.push_framebuffer (s : State) (a : Word) : (s.push a).framebuffer = s.framebuffer := rfl
@[simp] theorem State.push_drawFlag (s : State) (a : Word) : (s.push a).drawFlag = s.drawFlag := rfl
@[simp] theorem State.push_keys (s : State) (a : Word) : (s.push a).keys = s.keys := rfl
@[simp] theorem State.push_rnd (s : State) (a : Word) : (s.push a).rnd = s.rnd := rfl
@[simp] theorem State.push_pending (s : State) (a : Word) : (s.push a).pending = s.pending := rfl
@[simp] theorem State.push_drawn (s : State) (a : Word) : (s.push a).drawn = s.drawn := rfl

/-! ### drop -/

@[simp] theorem State.drop_memory (s : State) : (s.drop).memory = s.memory := rfl
@[simp] theorem State.drop_V (s : State) : (s.drop).V = s.V := rfl
@[simp] theorem State.drop_I (s : State) : (s.drop).I = s.I := rfl
@[simp] theorem State.drop_pc (s : State) : (s.drop).pc = s.pc := rfl
@[simp] theorem State.drop_stack (s : State) : (s.drop).stack = s.stack := rfl
@[simp] theorem State.drop_sp (s : State) : (s.drop).sp = s.sp - 1 := rfl
@[simp] theorem State.drop_delayTimer (s : State) : (s.drop).delayTimer = s.delayTimer := rfl
@[simp] theorem State.drop_soundTimer (s : State) : (s.drop).soundTimer = s.soundTimer := rfl
@[simp] theorem State.drop_framebuffer (s : State) : (s.drop).framebuffer = s.framebuffer := rfl
@[simp] theorem State.drop_drawFlag (s : State) : (s.drop).drawFlag = s.drawFlag := rfl
@[simp] theorem State.drop_keys (s : State) : (s.drop).keys = s.keys := rfl
@[simp] theorem State.drop_rnd (s : State) : (s.drop).rnd = s.rnd := rfl
@[simp] theorem State.drop_pending (s : State) : (s.drop).pending = s.pending := rfl
@[simp] theorem State.drop_drawn (s : State) : (s.drop).drawn = s.drawn := rfl

/-! ### ticked -/

@[simp] theorem State.ticked_memory (s : State) : (s.ticked).memory = s.memory := rfl
@[simp] theorem State.ticked_V (s : State) : (s.ticked).V = s.V := rfl
@[simp] theorem State.ticked_I (s : State) : (s.ticked).I = s.I := rfl
@[simp] theorem State.ticked_pc (s : State) : (s.ticked).pc = s.pc := rfl
@[simp] theorem State.ticked_stack (s : State) : (s.ticked).stack = s.stack := rfl
@[simp] theorem State.ticked_sp (s : State) : (s.ticked).sp = s.sp := rfl
@[simp] theorem State.ticked_delayTimer (s : State) : (s.ticked).delayTimer = timerDown s.delayTimer := rfl
@[simp] theorem State.ticked_soundTimer (s : State) : (s.ticked).soundTimer = timerDown s.soundTimer := rfl
@[simp] theorem State.ticked_framebuffer (s : State) : (s.ticked).framebuffer = s.framebuffer := rfl
@[simp] theorem State.ticked_drawFlag (s : State) : (s.ticked).drawFlag = s.drawFlag := rfl
@[simp] theorem State.ticked_keys (s : State) : (s.ticked).keys = s.keys := rfl
@[simp] theorem State.ticked_rnd (s : State) : (s.ticked).rnd = s.rnd := rfl
@[simp] theorem State.ticked_pending (s : State) : (s.ticked).pending = s.pending := rfl
@[simp] theorem State.ticked_drawn (s : State) : (s.ticked).drawn = s.drawn := rfl

/-! ### flagTaken -/

@[simp] theorem State.flagTaken_memory (s : State) : (s.flagTaken).memory = s.memory := rfl
@[simp] theorem State.flagTaken_V (s : State) : (s.flagTaken).V = s.V := rfl
@[simp] theorem State.flagTaken_I (s : State) : (s.flagTaken).I = s.I := rfl
@[simp] theorem State.flagTaken_pc (s : State) : (s.flagTaken).pc = s.pc := rfl
@[simp] theorem State.flagTaken_stack (s : State) : (s.flagTaken).stack = s.stack := rfl
@[simp] theorem State.flagTaken_sp (s : State) : (s.flagTaken).sp = s.sp := rfl
@[simp] theorem State.flagTaken_delayTimer (s : State) : (s.flagTaken).delayTimer = s.delayTimer := rfl
@[simp] theorem State.flagTaken_soundTimer (s : State) : (s.flagTaken).soundTimer = s.soundTimer := rfl
@[simp] theorem State.flagTaken_framebuffer (s : State) : (s.flagTaken).framebuffer = s.framebuffer := rfl
@[simp] theorem State.flagTaken_drawFlag (s : State) : (s.flagTaken).drawFlag = false := rfl
@[simp] theorem State.flagTaken_keys (s : State) : (s.flagTaken).keys = s.keys := rfl
@[simp] theorem State.flagTaken_rnd (s : State) : (s.flagTaken).rnd = s.rnd := rfl
@[simp] theorem State.flagTaken_pending (s : State) : (s.flagTaken).pending = s.pending := rfl
@[simp] theorem State.flagTaken_drawn (s : State) : (s.flagTaken).drawn = s.drawn := rfl

/-! ### present -/

@[simp] theorem State.present_memory (s : State) (k : Word) (b : Byte) : (s.present k b).memory = s.memory := rfl
@[simp] theorem State.present_V (s : State) (k : Word) (b : Byte) : (s.present k b).V = s.V := rfl
@[simp] theorem State.present_I (s : State) (k : Word) (b : Byte) : (s.present k b).I = s.I := rfl
@[simp] theorem State.present_pc (s : State) (k : Word) (b : Byte) : (s.present k b).pc = s.pc := rfl
@[simp] theorem State.present_stack (s : State) (k : Word) (b : Byte) : (s.present k b).stack = s.stack := rfl
@[simp] theorem State.present_sp (s : State) (k : Word) (b : Byte) : (s.present k b).sp = s.sp := rfl
@[simp] theorem State.present_delayTimer (s : State) (k : Word) (b : Byte) : (s.present k b).delayTimer = s.delayTimer := rfl
@[simp] theorem State.present_soundTimer (s : State) (k : Word) (b : Byte) : (s.present k b).soundTimer = s.soundTimer := rfl
@[simp] theorem State.present_framebuffer (s : State) (k : Word) (b : Byte) : (s.present k b).framebuffer = s.framebuffer := rfl
@[simp] theorem State.present_drawFlag (s : State) (k : Word) (b : Byte) : (s.present k b).drawFlag = s.drawFlag := rfl
@[simp] theorem State.present_keys (s : State) (k : Word) (b : Byte) : (s.present k b).keys = k := rfl
@[simp] theorem State.present_rnd (s : State) (k : Word) (b : Byte) : (s.present k b).rnd = b := rfl
@[simp] theorem State.present_pending (s : State) (k : Word) (b : Byte) : (s.present k b).pending = s.pending := rfl
@[simp] theorem State.present_drawn (s : State) (k : Word) (b : Byte) : (s.present k b).drawn = s.drawn := rfl

/-! ### applyEntry -/

@[simp] theorem State.applyEntry_memory (s : State) (e : EnvEntry) : (s.applyEntry e).memory = s.memory := rfl
@[simp] theorem State.applyEntry_V (s : State) (e : EnvEntry) : (s.applyEntry e).V = s.V := rfl
@[simp] theorem State.applyEntry_I (s : State) (e : EnvEntry) : (s.applyEntry e).I = s.I := rfl
@[simp] theorem State.applyEntry_pc (s : State) (e : EnvEntry) : (s.applyEntry e).pc = s.pc := rfl
@[simp] theorem State.applyEntry_stack (s : State) (e : EnvEntry) : (s.applyEntry e).stack = s.stack := rfl
@[simp] theorem State.applyEntry_sp (s : State) (e : EnvEntry) : (s.applyEntry e).sp = s.sp := rfl
@[simp] theorem State.applyEntry_delayTimer (s : State) (e : EnvEntry) : (s.applyEntry e).delayTimer = timerAfter e.ticks s.delayTimer := rfl
@[simp] theorem State.applyEntry_soundTimer (s : State) (e : EnvEntry) : (s.applyEntry e).soundTimer = timerAfter e.ticks s.soundTimer := rfl
@[simp] theorem State.applyEntry_framebuffer (s : State) (e : EnvEntry) : (s.applyEntry e).framebuffer = s.framebuffer := rfl
@[simp] theorem State.applyEntry_drawFlag (s : State) (e : EnvEntry) : (s.applyEntry e).drawFlag = (s.drawFlag && !e.take) := rfl
@[simp] theorem State.applyEntry_keys (s : State) (e : EnvEntry) : (s.applyEntry e).keys = e.keys := rfl
@[simp] theorem State.applyEntry_rnd (s : State) (e : EnvEntry) : (s.applyEntry e).rnd = e.rnd := rfl
@[simp] theorem State.applyEntry_pending (s : State) (e : EnvEntry) : (s.applyEntry e).pending = s.pending := rfl
@[simp] theorem State.applyEntry_drawn (s : State) (e : EnvEntry) : (s.applyEntry e).drawn = s.drawn := rfl

/-! ### consumeEntry -/

@[simp] theorem State.consumeEntry_memory (s : State) : (s.consumeEntry).memory = s.memory := rfl
@[simp] theorem State.consumeEntry_V (s : State) : (s.consumeEntry).V = s.V := rfl
@[simp] theorem State.consumeEntry_I (s : State) : (s.consumeEntry).I = s.I := rfl
@[simp] theorem State.consumeEntry_pc (s : State) : (s.consumeEntry).pc = s.pc := rfl
@[simp] theorem State.consumeEntry_stack (s : State) : (s.consumeEntry).stack = s.stack := rfl
@[simp] theorem State.consumeEntry_sp (s : State) : (s.consumeEntry).sp = s.sp := rfl
@[simp] theorem State.consumeEntry_delayTimer (s : State) : (s.consumeEntry).delayTimer = s.delayTimer := rfl
@[simp] theorem State.consumeEntry_soundTimer (s : State) : (s.consumeEntry).soundTimer = s.soundTimer := rfl
@[simp] theorem State.consumeEntry_framebuffer (s : State) : (s.consumeEntry).framebuffer = s.framebuffer := rfl
@[simp] theorem State.consumeEntry_drawFlag (s : State) : (s.consumeEntry).drawFlag = s.drawFlag := rfl
@[simp] theorem State.consumeEntry_keys (s : State) : (s.consumeEntry).keys = s.keys := rfl
@[simp] theorem State.consumeEntry_rnd (s : State) : (s.consumeEntry).rnd = s.rnd := rfl
@[simp] theorem State.consumeEntry_pending (s : State) : (s.consumeEntry).pending = s.pending.tail := rfl
@[simp] theorem State.consumeEntry_drawn (s : State) : (s.consumeEntry).drawn = (if s.pending.isEmpty then s.drawn + 1 else s.drawn) := rfl

/-! ### environment -/

@[simp] theorem State.environment_memory (s : State) : (s.environment).memory = s.memory := rfl
@[simp] theorem State.environment_V (s : State) : (s.environment).V = s.V := rfl
@[simp] theorem State.environment_I (s : State) : (s.environment).I = s.I := rfl
@[simp] theorem State.environment_pc (s : State) : (s.environment).pc = s.pc := rfl
@[simp] theorem State.environment_stack (s : State) : (s.environment).stack = s.stack := rfl
@[simp] theorem State.environment_sp (s : State) : (s.environment).sp = s.sp := rfl
@[simp] theorem State.environment_delayTimer (s : State) : (s.environment).delayTimer = timerAfter s.nextEntry.ticks s.delayTimer := rfl
@[simp] theorem State.environment_soundTimer (s : State) : (s.environment).soundTimer = timerAfter s.nextEntry.ticks s.soundTimer := rfl
@[simp] theorem State.environment_framebuffer (s : State) : (s.environment).framebuffer = s.framebuffer := rfl
@[simp] theorem State.environment_drawFlag (s : State) : (s.environment).drawFlag = (s.drawFlag && !s.nextEntry.take) := rfl
@[simp] theorem State.environment_keys (s : State) : (s.environment).keys = s.nextEntry.keys := rfl
@[simp] theorem State.environment_rnd (s : State) : (s.environment).rnd = s.nextEntry.rnd := rfl
@[simp] theorem State.environment_pending (s : State) : (s.environment).pending = s.pending.tail := rfl
@[simp] theorem State.environment_drawn (s : State) : (s.environment).drawn = (if s.pending.isEmpty then s.drawn + 1 else s.drawn) := rfl

/-! ### Reading V through the updates that leave it alone -/

@[simp] theorem State.setPc_getV (s : State) (a : Word) (q : RegNum) : (s.setPc a).getV q = s.getV q := rfl
@[simp] theorem State.advance_getV (s : State) (q : RegNum) : (s.advance).getV q = s.getV q := rfl
@[simp] theorem State.skipIf_getV (s : State) (c : Bool) (q : RegNum) : (s.skipIf c).getV q = s.getV q := rfl
@[simp] theorem State.setI_getV (s : State) (a : Word) (q : RegNum) : (s.setI a).getV q = s.getV q := rfl
@[simp] theorem State.setDelay_getV (s : State) (b : Byte) (q : RegNum) : (s.setDelay b).getV q = s.getV q := rfl
@[simp] theorem State.setSound_getV (s : State) (b : Byte) (q : RegNum) : (s.setSound b).getV q = s.getV q := rfl
@[simp] theorem State.setScreen_getV (s : State) (fb : Framebuffer) (q : RegNum) : (s.setScreen fb).getV q = s.getV q := rfl
@[simp] theorem State.setMemory_getV (s : State) (m : Memory) (q : RegNum) : (s.setMemory m).getV q = s.getV q := rfl
@[simp] theorem State.push_getV (s : State) (a : Word) (q : RegNum) : (s.push a).getV q = s.getV q := rfl
@[simp] theorem State.drop_getV (s : State) (q : RegNum) : (s.drop).getV q = s.getV q := rfl
@[simp] theorem State.ticked_getV (s : State) (q : RegNum) : (s.ticked).getV q = s.getV q := rfl
@[simp] theorem State.flagTaken_getV (s : State) (q : RegNum) : (s.flagTaken).getV q = s.getV q := rfl
@[simp] theorem State.present_getV (s : State) (k : Word) (b : Byte) (q : RegNum) : (s.present k b).getV q = s.getV q := rfl
@[simp] theorem State.applyEntry_getV (s : State) (e : EnvEntry) (q : RegNum) : (s.applyEntry e).getV q = s.getV q := rfl
@[simp] theorem State.consumeEntry_getV (s : State) (q : RegNum) : (s.consumeEntry).getV q = s.getV q := rfl
@[simp] theorem State.environment_getV (s : State) (q : RegNum) : (s.environment).getV q = s.getV q := rfl

/-! ### The inputs of the step are read only where an instruction reads them -/

theorem fetchable_environment (s : State) : s.environment.pc = s.pc ∧ s.environment.memory = s.memory := ⟨rfl, rfl⟩

end Sys2Proof.Machine
end

