-- ==== Sys2Proof/Laws/Environment.lean ====
section
/-! SUPPORT. The environment: the closed form of a timer is its ticks one by one, and an entry is the operations `tick`,
`take_draw_flag` and the presenting of the inputs in a row. -/

namespace Sys2Proof.Machine

theorem timerDown_toNat (v : Byte) : (timerDown v).toNat = v.toNat - 1 := by
  have hv := v.isLt
  unfold timerDown
  by_cases h : v = 0
  · subst h; rfl
  · have h0 : v.toNat ≠ 0 := fun e => h (BitVec.eq_of_toNat_eq (by simpa using e))
    rw [if_neg h, BitVec.toNat_sub]
    simp
    omega

theorem timerAfter_toNat (k : Nat) (v : Byte) : (timerAfter k v).toNat = v.toNat - k := by
  have hv := v.isLt
  simp [timerAfter]
  omega

@[simp] theorem timerAfter_zero (v : Byte) : timerAfter 0 v = v := by
  apply BitVec.eq_of_toNat_eq
  simp [timerAfter_toNat]

theorem timerAfter_succ (k : Nat) (v : Byte) : timerAfter (k + 1) v = timerAfter k (timerDown v) := by
  apply BitVec.eq_of_toNat_eq
  rw [timerAfter_toNat, timerAfter_toNat, timerDown_toNat]
  omega

/-- `k` ticks change the two timers by their closed form and nothing else. -/
theorem State.tickTimes_fst (k : Nat) (s : State) :
    (State.tickTimes k s).1 =
      { s with delayTimer := timerAfter k s.delayTimer, soundTimer := timerAfter k s.soundTimer } := by
  induction k generalizing s with
  | zero => simp [State.tickTimes]
  | succ k ih => simp [State.tickTimes, ih, timerAfter_succ, State.ticked]

@[simp] theorem State.tickTimes_length (k : Nat) (s : State) : (State.tickTimes k s).2.length = k := by
  induction k generalizing s with
  | zero => rfl
  | succ k ih => simp [State.tickTimes, ih]

/-- An environment entry is its ticks, then the taking of the flag if it takes it, then the inputs. -/
theorem State.applyEntry_eq (s : State) (e : EnvEntry) :
    s.applyEntry e =
      (if e.take then (State.tickTimes e.ticks s).1.flagTaken else (State.tickTimes e.ticks s).1).present e.keys e.rnd := by
  cases h : e.take <;> simp [State.applyEntry, State.tickTimes_fst, State.flagTaken, State.present, h]

theorem State.nextEntry_cons (s : State) (e : EnvEntry) (es : List EnvEntry) (h : s.pending = e :: es) :
    s.nextEntry = e := by
  simp [State.nextEntry, h]

theorem State.nextEntry_nil (s : State) (h : s.pending = []) : s.nextEntry = freeEntry s.drawn := by
  simp [State.nextEntry, h]

/-- Everything `load` can do. -/
theorem State.load_eq (s : State) (bytes : List Byte) :
    s.load bytes =
      if 3584 < bytes.length then none else some (s.setMemory (Memory.writeBytes s.memory 0x200 bytes)) := rfl

end Sys2Proof.Machine
end

