-- ==== Sys2Proof/Laws/Memory.lean ====
section
/-! SUPPORT. Memory: a read after a write, the canonical form kept by every operation, and equal reads of canonical
memories mean equal memories. -/

namespace Sys2Proof.Machine

/-! ### One byte -/

theorem Memory.read_of_wfFrom_lt {m : Memory} {lo a : Nat} (h : Memory.wfFrom lo m = true) (ha : a < lo) :
    m.read a = Memory.unlisted a := by
  induction m generalizing lo with
  | nil => rfl
  | cons c m ih =>
    obtain ⟨k, b⟩ := c
    simp only [Memory.wfFrom, Bool.and_eq_true, decide_eq_true_eq] at h
    have hk : k ≠ a := by omega
    simp only [Memory.read, hk, if_false]
    exact ih h.2 (by omega)

theorem Memory.read_write {m : Memory} {lo : Nat} (h : Memory.wfFrom lo m = true) (a q : Nat) (b : Byte) :
    (m.write a b).read q = if q = a then b else m.read q := by
  induction m generalizing lo with
  | nil =>
    by_cases hq : q = a
    · by_cases hb : b = Memory.unlisted a <;> simp [Memory.write, Memory.read, hb, hq]
    · by_cases hb : b = Memory.unlisted a <;> simp [Memory.write, Memory.read, hb, hq, Ne.symm hq]
  | cons c m ih =>
    obtain ⟨k, c⟩ := c
    simp only [Memory.wfFrom, Bool.and_eq_true, decide_eq_true_eq] at h
    obtain ⟨⟨⟨hlo, hk⟩, hc⟩, hm⟩ := h
    have below : ∀ p, p < k + 1 → Memory.read m p = Memory.unlisted p := fun p hp => Memory.read_of_wfFrom_lt hm hp
    rcases Nat.lt_trichotomy a k with hak | hak | hak
    · by_cases hb : b = Memory.unlisted a
      · by_cases hq : q = a
        · subst hq
          simp [Memory.write, Memory.read, hak, hb, below q (by omega), Nat.ne_of_gt hak]
        · simp [Memory.write, hak, hb, hq]
      · by_cases hq : q = a
        · simp [Memory.write, Memory.read, hak, hb, hq]
        · simp [Memory.write, Memory.read, hak, hb, hq, Ne.symm hq]
    · subst hak
      by_cases hb : b = Memory.unlisted a
      · by_cases hq : q = a
        · subst hq
          simp [Memory.write, hb, below q (by omega)]
        · simp [Memory.write, Memory.read, hb, hq, Ne.symm hq]
      · by_cases hq : q = a
        · simp [Memory.write, Memory.read, hb, hq]
        · simp [Memory.write, Memory.read, hb, hq, Ne.symm hq]
    · have h1 : ¬ a < k := by omega
      have h2 : a ≠ k := by omega
      by_cases hq : q = a
      · have := ih hm
        subst hq
        simp only [if_true] at this
        simp [Memory.write, Memory.read, h1, h2, this, Ne.symm h2]
      · simp [Memory.write, Memory.read, h1, h2, ih hm, hq]

theorem Memory.wfFrom_mono {m : Memory} {lo lo' : Nat} (h : Memory.wfFrom lo m = true) (hl : lo' ≤ lo) :
    Memory.wfFrom lo' m = true := by
  cases m with
  | nil => rfl
  | cons c m =>
    obtain ⟨k, b⟩ := c
    simp only [Memory.wfFrom, Bool.and_eq_true, decide_eq_true_eq] at h ⊢
    exact ⟨⟨⟨by omega, h.1.1.2⟩, h.1.2⟩, h.2⟩

theorem Memory.write_wfFrom {m : Memory} {lo : Nat} (h : Memory.wfFrom lo m = true) {a : Nat} (hlo : lo ≤ a)
    (ha : a < 4096) (b : Byte) : Memory.wfFrom lo (m.write a b) = true := by
  induction m generalizing lo with
  | nil =>
    by_cases hb : b = Memory.unlisted a <;> simp [Memory.write, Memory.wfFrom, hb, hlo, ha]
  | cons c m ih =>
    obtain ⟨k, c⟩ := c
    have h0 := h
    simp only [Memory.wfFrom, Bool.and_eq_true, decide_eq_true_eq] at h
    obtain ⟨⟨⟨hk0, hk⟩, hc⟩, hm⟩ := h
    rcases Nat.lt_trichotomy a k with hak | hak | hak
    · by_cases hb : b = Memory.unlisted a
      · simpa [Memory.write, hak, hb] using h0
      · simp only [Memory.write, hak, hb, if_true, if_false, Memory.wfFrom, Bool.and_eq_true, decide_eq_true_eq]
        exact ⟨⟨⟨hlo, ha⟩, hb⟩, ⟨⟨by omega, hk⟩, hc⟩, hm⟩
    · subst hak
      by_cases hb : b = Memory.unlisted a
      · simpa [Memory.write, hb] using Memory.wfFrom_mono hm (by omega)
      · simp [Memory.write, Memory.wfFrom, hb, hlo, ha, hm]
    · have h1 : ¬ a < k := by omega
      have h2 : a ≠ k := by omega
      simp only [Memory.write, h1, h2, if_false, Memory.wfFrom, Bool.and_eq_true, decide_eq_true_eq]
      exact ⟨⟨⟨hk0, hk⟩, hc⟩, ih hm (by omega)⟩

/-- The read-after-write law of one byte. -/
theorem Memory.read_write_of_wf {m : Memory} (h : m.wf = true) (a q : Nat) (b : Byte) :
    (m.write a b).read q = if q = a then b else m.read q := Memory.read_write h a q b

/-- A write to an address that exists keeps the canonical form. -/
theorem Memory.write_wf {m : Memory} (h : m.wf = true) {a : Nat} (ha : a < 4096) (b : Byte) :
    (m.write a b).wf = true := Memory.write_wfFrom h (Nat.zero_le a) ha b

/-! ### Many bytes -/

theorem Memory.writeBytes_wf {m : Memory} (h : m.wf = true) {a : Nat} {bs : List Byte} (ha : a + bs.length ≤ 4096) :
    (m.writeBytes a bs).wf = true := by
  induction bs generalizing m a with
  | nil => exact h
  | cons b bs ih =>
    simp only [List.length_cons] at ha
    exact ih (Memory.write_wf h (by omega) b) (by omega)

/-- Everything a multi-byte write does to a read: inside the block the byte of that position, outside as before. -/
theorem Memory.read_writeBytes {m : Memory} (h : m.wf = true) {a : Nat} {bs : List Byte} (ha : a + bs.length ≤ 4096)
    (q : Nat) :
    (m.writeBytes a bs).read q = if a ≤ q ∧ q < a + bs.length then bs.getD (q - a) 0 else m.read q := by
  induction bs generalizing m a with
  | nil =>
    have : ¬ (a ≤ q ∧ q < a + 0) := by omega
    simp [Memory.writeBytes]
  | cons b bs ih =>
    simp only [List.length_cons] at ha ⊢
    simp only [Memory.writeBytes]
    rw [ih (Memory.write_wf h (by omega) b) (by omega), Memory.read_write_of_wf h]
    by_cases hq : q = a
    · subst hq
      simp
    · by_cases hin : a + 1 ≤ q ∧ q < a + 1 + bs.length
      · have h2 : a ≤ q ∧ q < a + (bs.length + 1) := by omega
        obtain ⟨d, hd⟩ : ∃ d, q - a = d + 1 := ⟨q - a - 1, by omega⟩
        have hd' : q - (a + 1) = d := by omega
        rw [if_pos hin, if_pos h2, hd, hd']
        rfl
      · have h2 : ¬ (a ≤ q ∧ q < a + (bs.length + 1)) := by omega
        rw [if_neg hin, if_neg h2, if_neg hq]

@[simp] theorem Memory.readBytes_length (m : Memory) (a n : Nat) : (m.readBytes a n).length = n := by
  induction n generalizing a with
  | zero => rfl
  | succ n ih => simp [Memory.readBytes, ih]

theorem Memory.readBytes_getElem? (m : Memory) (a n k : Nat) (h : k < n) :
    (m.readBytes a n)[k]? = some (m.read (a + k)) := by
  induction n generalizing a k with
  | zero => omega
  | succ n ih =>
    cases k with
    | zero => rfl
    | succ k =>
      simp only [Memory.readBytes, List.getElem?_cons_succ]
      rw [ih (a + 1) k (by omega)]
      congr 2
      omega

theorem Memory.readBytes_congr {m m' : Memory} (h : ∀ q, m'.read q = m.read q) (a n : Nat) :
    m'.readBytes a n = m.readBytes a n := by
  induction n generalizing a with
  | zero => rfl
  | succ n ih => simp [Memory.readBytes, h, ih]

/-! ### Canonical memories with equal reads are equal -/

theorem Memory.eq_of_read_eq {m m' : Memory} {lo : Nat} (h : Memory.wfFrom lo m = true) (h' : Memory.wfFrom lo m' = true)
    (e : ∀ q, m.read q = m'.read q) : m = m' := by
  induction m generalizing lo m' with
  | nil =>
    cases m' with
    | nil => rfl
    | cons c m' =>
      obtain ⟨k, b⟩ := c
      simp only [Memory.wfFrom, Bool.and_eq_true, decide_eq_true_eq] at h'
      have := e k
      simp [Memory.read] at this
      exact absurd this.symm h'.1.2
  | cons c m ih =>
    obtain ⟨k, b⟩ := c
    simp only [Memory.wfFrom, Bool.and_eq_true, decide_eq_true_eq] at h
    cases m' with
    | nil =>
      have := e k
      simp [Memory.read] at this
      exact absurd this h.1.2
    | cons c' m' =>
      obtain ⟨k', b'⟩ := c'
      simp only [Memory.wfFrom, Bool.and_eq_true, decide_eq_true_eq] at h'
      rcases Nat.lt_trichotomy k k' with hk | hk | hk
      · have h1 := e k
        have h2 : Memory.read m' k = Memory.unlisted k := Memory.read_of_wfFrom_lt h'.2 (by omega)
        have h3 : k' ≠ k := by omega
        simp [Memory.read, h3, h2] at h1
        exact absurd h1 h.1.2
      · subst hk
        have hb := e k
        simp [Memory.read] at hb
        subst hb
        have : m = m' := by
          refine ih h.2 h'.2 fun q => ?_
          by_cases hq : k = q
          · rw [Memory.read_of_wfFrom_lt h.2 (by omega), Memory.read_of_wfFrom_lt h'.2 (by omega)]
          · have := e q
            simpa [Memory.read, hq] using this
        rw [this]
      · have h1 := e k'
        have h2 : Memory.read m k' = Memory.unlisted k' := Memory.read_of_wfFrom_lt h.2 (by omega)
        have h3 : k ≠ k' := by omega
        simp [Memory.read, h3, h2] at h1
        exact absurd h1.symm h'.1.2

/-! ### The words the fetch reads, and the checks -/

theorem inMemory_iff (base len : Nat) : inMemory base len = true ↔ len = 0 ∨ base + len ≤ 4096 := by
  simp [inMemory]

theorem fetch_ok_iff (s : State) (w : Word) :
    fetch s = .ok w ↔ s.pc.toNat + 2 ≤ 4096 ∧ s.memory.readWord s.pc.toNat = w := by
  by_cases h : s.pc.toNat + 2 ≤ 4096 <;> simp [fetch, inMemory, h]

/-- Everything the bounds check can do. -/
theorem withData_eq (s : State) (len : Nat) (k : Result) :
    withData s len k =
      if len = 0 ∨ s.I.toNat + len ≤ 4096 then k else .fault (.memoryOutOfRange .data s.I len) := by
  simp only [withData, raise, inMemory_iff]

theorem withData_next {s t : State} {len : Nat} {k : Result} (h : withData s len k = .next t) :
    (len = 0 ∨ s.I.toNat + len ≤ 4096) ∧ k = .next t := by
  rw [withData_eq] at h
  split at h
  · exact ⟨‹_›, h⟩
  · cases h

/-- Everything the key check can do. -/
theorem withKey_eq (v : Byte) (k : Result) :
    withKey v k = if 15 < v.toNat then .fault (.keyIndexOutOfRange v) else k := rfl

theorem withKey_next {v : Byte} {t : State} {k : Result} (h : withKey v k = .next t) : v.toNat ≤ 15 ∧ k = .next t := by
  rw [withKey_eq] at h
  split at h
  · cases h
  · exact ⟨by omega, h⟩

theorem placeWord_wf {s : State} (h : s.memory.wf = true) (w : Word) : (s.placeWord w).memory.wf = true := by
  unfold State.placeWord
  split
  · rename_i hp
    rw [inMemory_iff] at hp
    exact Memory.writeBytes_wf h (by simp [bytesOfWord]; omega)
  · exact h

end Sys2Proof.Machine
end

