-- ==== Sys2Proof/Laws/PerInstr.lean ====
section
/-! SUPPORT. Statements about every instruction as syntax, one lemma per constructor. `EncodesInRow`: the word the encoder
gives belongs to the instruction's own row of the opcode table (30_encoding.md R76). -/

namespace Sys2Proof.Laws

/-- The row of the opcode table that an instruction's mnemonic names. -/
def rowOf (i : Instr) : Option OpcodeRow := opcodeTable.find? fun r => r.mnemonic == i.mnemonic

theorem regBits_toNat (r : RegNum) : (regBits r).toNat = r.val := rfl

/-- The encoder's word is the one its table row accepts. -/
def EncodesInRow.Statement (i : Instr) : Prop := ∃ r, rowOf i = some r ∧ r.accepts (encode i) = true

/-- A word of the form fixed digit, twelve free bits keeps its fixed digit under the mask. -/
theorem accepts_digit (op : BitVec 4) (f : BitVec 12) (lo m v : Word) (hm : m = 0xF000#16) (hv : v = op ++ 0#12)
    (hl : lo = op ++ f) : (lo &&& m == v) = true := by
  subst hm hv hl
  rw [beq_iff_eq]
  apply BitVec.eq_of_getLsbD_eq
  intro k hk
  simp only [BitVec.getLsbD_and, BitVec.getLsbD_append]
  interval_cases k <;> simp

theorem accepts_digit_byte (op x : BitVec 4) (b : Byte) (lo m v : Word) (hm : m = 0xF000#16) (hv : v = op ++ 0#12)
    (hl : lo = op ++ x ++ b) : (lo &&& m == v) = true := by
  subst hm hv hl
  rw [beq_iff_eq]
  apply BitVec.eq_of_getLsbD_eq
  intro k hk
  simp only [BitVec.getLsbD_and, BitVec.getLsbD_append]
  interval_cases k <;> simp

theorem accepts_digits (op x y n : BitVec 4) (lo m v : Word) (hm : m = 0xF000#16) (hv : v = op ++ 0#12)
    (hl : lo = op ++ x ++ y ++ n) : (lo &&& m == v) = true := by
  subst hm hv hl
  rw [beq_iff_eq]
  apply BitVec.eq_of_getLsbD_eq
  intro k hk
  simp only [BitVec.getLsbD_and, BitVec.getLsbD_append]
  interval_cases k <;> simp

theorem accepts_two_digits (op x y n : BitVec 4) (lo m v : Word) (hm : m = 0xF00F#16) (hv : v = op ++ 0#8 ++ n)
    (hl : lo = op ++ x ++ y ++ n) : (lo &&& m == v) = true := by
  subst hm hv hl
  rw [beq_iff_eq]
  apply BitVec.eq_of_getLsbD_eq
  intro k hk
  simp only [BitVec.getLsbD_and, BitVec.getLsbD_append]
  interval_cases k <;> simp

theorem accepts_digit_and_byte (op x : BitVec 4) (b : Byte) (lo m v : Word) (hm : m = 0xF0FF#16)
    (hv : v = op ++ 0#4 ++ b) (hl : lo = op ++ x ++ b) : (lo &&& m == v) = true := by
  subst hm hv hl
  rw [beq_iff_eq]
  apply BitVec.eq_of_getLsbD_eq
  intro k hk
  simp only [BitVec.getLsbD_and, BitVec.getLsbD_append]
  interval_cases k <;> simp

theorem EncodesInRow.cls : EncodesInRow.Statement (.cls) :=
  ⟨_, by rfl, by decide⟩

theorem EncodesInRow.ret : EncodesInRow.Statement (.ret) :=
  ⟨_, by rfl, by decide⟩

theorem EncodesInRow.jp (nnn : BitVec 12) : EncodesInRow.Statement (.jp nnn) :=
  ⟨_, by rfl, accepts_digit 0x1#4 nnn _ _ _ rfl rfl rfl⟩

theorem EncodesInRow.call (nnn : BitVec 12) : EncodesInRow.Statement (.call nnn) :=
  ⟨_, by rfl, accepts_digit 0x2#4 nnn _ _ _ rfl rfl rfl⟩

theorem EncodesInRow.seImm (x : RegNum) (nn : Byte) : EncodesInRow.Statement (.seImm x nn) :=
  ⟨_, by rfl, accepts_digit_byte 0x3#4 (regBits x) nn _ _ _ rfl rfl rfl⟩

theorem EncodesInRow.sneImm (x : RegNum) (nn : Byte) : EncodesInRow.Statement (.sneImm x nn) :=
  ⟨_, by rfl, accepts_digit_byte 0x4#4 (regBits x) nn _ _ _ rfl rfl rfl⟩

theorem EncodesInRow.seReg (x : RegNum) (y : RegNum) : EncodesInRow.Statement (.seReg x y) :=
  ⟨_, by rfl, accepts_two_digits 0x5#4 (regBits x) (regBits y) 0x0#4 _ _ _ rfl rfl rfl⟩

theorem EncodesInRow.ldImm (x : RegNum) (nn : Byte) : EncodesInRow.Statement (.ldImm x nn) :=
  ⟨_, by rfl, accepts_digit_byte 0x6#4 (regBits x) nn _ _ _ rfl rfl rfl⟩

theorem EncodesInRow.addImm (x : RegNum) (nn : Byte) : EncodesInRow.Statement (.addImm x nn) :=
  ⟨_, by rfl, accepts_digit_byte 0x7#4 (regBits x) nn _ _ _ rfl rfl rfl⟩

theorem EncodesInRow.ldReg (x : RegNum) (y : RegNum) : EncodesInRow.Statement (.ldReg x y) :=
  ⟨_, by rfl, accepts_two_digits 0x8#4 (regBits x) (regBits y) 0x0#4 _ _ _ rfl rfl rfl⟩

theorem EncodesInRow.orReg (x : RegNum) (y : RegNum) : EncodesInRow.Statement (.orReg x y) :=
  ⟨_, by rfl, accepts_two_digits 0x8#4 (regBits x) (regBits y) 0x1#4 _ _ _ rfl rfl rfl⟩

theorem EncodesInRow.andReg (x : RegNum) (y : RegNum) : EncodesInRow.Statement (.andReg x y) :=
  ⟨_, by rfl, accepts_two_digits 0x8#4 (regBits x) (regBits y) 0x2#4 _ _ _ rfl rfl rfl⟩

theorem EncodesInRow.xorReg (x : RegNum) (y : RegNum) : EncodesInRow.Statement (.xorReg x y) :=
  ⟨_, by rfl, accepts_two_digits 0x8#4 (regBits x) (regBits y) 0x3#4 _ _ _ rfl rfl rfl⟩

theorem EncodesInRow.addReg (x : RegNum) (y : RegNum) : EncodesInRow.Statement (.addReg x y) :=
  ⟨_, by rfl, accepts_two_digits 0x8#4 (regBits x) (regBits y) 0x4#4 _ _ _ rfl rfl rfl⟩

theorem EncodesInRow.subReg (x : RegNum) (y : RegNum) : EncodesInRow.Statement (.subReg x y) :=
  ⟨_, by rfl, accepts_two_digits 0x8#4 (regBits x) (regBits y) 0x5#4 _ _ _ rfl rfl rfl⟩

theorem EncodesInRow.shr (x : RegNum) (y : RegNum) : EncodesInRow.Statement (.shr x y) :=
  ⟨_, by rfl, accepts_two_digits 0x8#4 (regBits x) (regBits y) 0x6#4 _ _ _ rfl rfl rfl⟩

theorem EncodesInRow.subn (x : RegNum) (y : RegNum) : EncodesInRow.Statement (.subn x y) :=
  ⟨_, by rfl, accepts_two_digits 0x8#4 (regBits x) (regBits y) 0x7#4 _ _ _ rfl rfl rfl⟩

theorem EncodesInRow.shl (x : RegNum) (y : RegNum) : EncodesInRow.Statement (.shl x y) :=
  ⟨_, by rfl, accepts_two_digits 0x8#4 (regBits x) (regBits y) 0xE#4 _ _ _ rfl rfl rfl⟩

theorem EncodesInRow.sneReg (x : RegNum) (y : RegNum) : EncodesInRow.Statement (.sneReg x y) :=
  ⟨_, by rfl, accepts_two_digits 0x9#4 (regBits x) (regBits y) 0x0#4 _ _ _ rfl rfl rfl⟩

theorem EncodesInRow.ldI (nnn : BitVec 12) : EncodesInRow.Statement (.ldI nnn) :=
  ⟨_, by rfl, accepts_digit 0xA#4 nnn _ _ _ rfl rfl rfl⟩

theorem EncodesInRow.jpV0 (nnn : BitVec 12) : EncodesInRow.Statement (.jpV0 nnn) :=
  ⟨_, by rfl, accepts_digit 0xB#4 nnn _ _ _ rfl rfl rfl⟩

theorem EncodesInRow.rnd (x : RegNum) (nn : Byte) : EncodesInRow.Statement (.rnd x nn) :=
  ⟨_, by rfl, accepts_digit_byte 0xC#4 (regBits x) nn _ _ _ rfl rfl rfl⟩

theorem EncodesInRow.drw (x : RegNum) (y : RegNum) (n : BitVec 4) : EncodesInRow.Statement (.drw x y n) :=
  ⟨_, by rfl, accepts_digits 0xD#4 (regBits x) (regBits y) n _ _ _ rfl rfl rfl⟩

theorem EncodesInRow.skp (x : RegNum) : EncodesInRow.Statement (.skp x) :=
  ⟨_, by rfl, accepts_digit_and_byte 0xE#4 (regBits x) 0x9E#8 _ _ _ rfl rfl rfl⟩

theorem EncodesInRow.sknp (x : RegNum) : EncodesInRow.Statement (.sknp x) :=
  ⟨_, by rfl, accepts_digit_and_byte 0xE#4 (regBits x) 0xA1#8 _ _ _ rfl rfl rfl⟩

theorem EncodesInRow.ldVxDT (x : RegNum) : EncodesInRow.Statement (.ldVxDT x) :=
  ⟨_, by rfl, accepts_digit_and_byte 0xF#4 (regBits x) 0x07#8 _ _ _ rfl rfl rfl⟩

theorem EncodesInRow.ldVxK (x : RegNum) : EncodesInRow.Statement (.ldVxK x) :=
  ⟨_, by rfl, accepts_digit_and_byte 0xF#4 (regBits x) 0x0A#8 _ _ _ rfl rfl rfl⟩

theorem EncodesInRow.ldDTVx (x : RegNum) : EncodesInRow.Statement (.ldDTVx x) :=
  ⟨_, by rfl, accepts_digit_and_byte 0xF#4 (regBits x) 0x15#8 _ _ _ rfl rfl rfl⟩

theorem EncodesInRow.ldSTVx (x : RegNum) : EncodesInRow.Statement (.ldSTVx x) :=
  ⟨_, by rfl, accepts_digit_and_byte 0xF#4 (regBits x) 0x18#8 _ _ _ rfl rfl rfl⟩

theorem EncodesInRow.addI (x : RegNum) : EncodesInRow.Statement (.addI x) :=
  ⟨_, by rfl, accepts_digit_and_byte 0xF#4 (regBits x) 0x1E#8 _ _ _ rfl rfl rfl⟩

theorem EncodesInRow.ldF (x : RegNum) : EncodesInRow.Statement (.ldF x) :=
  ⟨_, by rfl, accepts_digit_and_byte 0xF#4 (regBits x) 0x29#8 _ _ _ rfl rfl rfl⟩

theorem EncodesInRow.ldB (x : RegNum) : EncodesInRow.Statement (.ldB x) :=
  ⟨_, by rfl, accepts_digit_and_byte 0xF#4 (regBits x) 0x33#8 _ _ _ rfl rfl rfl⟩

theorem EncodesInRow.storeRegs (x : RegNum) : EncodesInRow.Statement (.storeRegs x) :=
  ⟨_, by rfl, accepts_digit_and_byte 0xF#4 (regBits x) 0x55#8 _ _ _ rfl rfl rfl⟩

theorem EncodesInRow.loadRegs (x : RegNum) : EncodesInRow.Statement (.loadRegs x) :=
  ⟨_, by rfl, accepts_digit_and_byte 0xF#4 (regBits x) 0x65#8 _ _ _ rfl rfl rfl⟩

end Sys2Proof.Laws
end

