-- ==== Sys2Proof/Laws/Registers.lean ====
section
/-! SUPPORT. Reading a register after a write, the flags as numbers, and `setResult`. -/

namespace Sys2Proof.Machine

theorem State.setV_getV (s : State) (r q : RegNum) (b : Byte) :
    (s.setV r b).getV q = if q = r then b else s.getV q := by
  by_cases h : q = r
  · subst h; simp [State.getV, State.setV]
  · have : r.val ≠ q.val := fun e => h (Fin.ext e.symm)
    simp [State.getV, State.setV, h, this]

@[simp] theorem State.setV_getV_same (s : State) (r : RegNum) (b : Byte) : (s.setV r b).getV r = b := by
  simp [State.setV_getV]

theorem State.setV_getV_ne (s : State) {r q : RegNum} (b : Byte) (h : q ≠ r) : (s.setV r b).getV q = s.getV q := by
  simp [State.setV_getV, h]

@[simp] theorem State.setAllV_getV (s : State) (v : Vector Byte 16) (q : RegNum) : (s.setAllV v).getV q = v[q] := rfl

/-- Everything `setResult` does to V: VF holds the flag, whatever x is; else V[x] holds the result. -/
theorem State.setResult_getV (s : State) (x q : RegNum) (result flag : Byte) :
    (s.setResult x result flag).getV q = if q = flagReg then flag else if q = x then result else s.getV q := by
  simp [State.setResult, State.setV_getV]

/-- `setResult` touches V alone. -/
theorem State.setResult_eq (s : State) (x : RegNum) (result flag : Byte) :
    s.setResult x result flag = s.setAllV ((s.V.set x result).set flagReg flag) := rfl

@[simp] theorem flagByte_toNat (c : Bool) : (flagByte c).toNat = if c then 1 else 0 := by cases c <;> rfl

theorem flagByte_eq_one (c : Bool) : flagByte c = 1 ↔ c = true := by cases c <;> simp [flagByte]

theorem carryFlag_toNat (a b : Byte) : (carryFlag a b).toNat = if 255 < a.toNat + b.toNat then 1 else 0 := by
  simp [carryFlag]

theorem notBorrowFlag_toNat (a b : Byte) : (notBorrowFlag a b).toNat = if b.toNat ≤ a.toNat then 1 else 0 := by
  simp [notBorrowFlag]

theorem lowBitFlag_toNat (a : Byte) : (lowBitFlag a).toNat = a.toNat % 2 := by
  simp only [lowBitFlag, flagByte_toNat, BitVec.getLsbD, Nat.testBit_zero]
  split <;> simp_all

theorem highBitFlag_toNat (a : Byte) : (highBitFlag a).toNat = if 128 ≤ a.toNat then 1 else 0 := by
  have h := a.isLt
  simp only [highBitFlag, flagByte_toNat, BitVec.getLsbD, Nat.testBit_eq_decide_div_mod_eq]
  congr 1
  simp only [decide_eq_true_eq, eq_iff_iff]
  omega

theorem loadedRegs_getElem (s : State) (x : RegNum) (base : Nat) (q : RegNum) :
    (loadedRegs s x base)[q] = if q ≤ x then s.memory.read (base + q.val) else s.getV q := by
  simp [loadedRegs, State.getV]

@[simp] theorem regsUpTo_length (s : State) (x : RegNum) : (regsUpTo s x).length = x.val + 1 := by
  have := x.isLt
  simp [regsUpTo]

theorem regsUpTo_getElem (s : State) (x q : RegNum) (h : q ≤ x) :
    (regsUpTo s x)[q.val]? = some (s.getV q) := by
  have hx := x.isLt
  have hq : q.val < x.val + 1 := Nat.lt_succ_of_le h
  simp [regsUpTo, State.getV, hq]

end Sys2Proof.Machine
end

