-- ==== Sys2Proof/Laws/Screen.lean ====
section
/-! SUPPORT. The framebuffer: a pixel after a toggle, after a list of toggles, and after a clear; which positions a sprite
sets (46_display.md R171), and that they are distinct. -/

namespace Sys2Proof.Machine

/-- The positions of the screen. -/
abbrev OnScreen (r c : Nat) : Prop := r < 32 ∧ c < 64

theorem Framebuffer.pixel_off {fb : Framebuffer} {r c : Nat} (h : ¬ OnScreen r c) : fb.pixel r c = false := by
  simp [Framebuffer.pixel, h]

theorem Framebuffer.pixel_toggle (fb : Framebuffer) (r c r' c' : Nat) :
    (fb.toggle r c).pixel r' c' =
      if OnScreen r c ∧ r' = r ∧ c' = c then !(fb.pixel r c) else fb.pixel r' c' := by
  by_cases h : r < 32 ∧ c < 64
  · by_cases h' : r' < 32 ∧ c' < 64
    · by_cases hr : r' = r
      · subst hr
        by_cases hc : c' = c
        · subst hc
          simp [Framebuffer.pixel, Framebuffer.toggle, OnScreen, h]
        · simp [Framebuffer.pixel, Framebuffer.toggle, h, h', hc, Ne.symm hc]
      · simp [Framebuffer.pixel, Framebuffer.toggle, h, h', hr, Ne.symm hr]
    · have : ¬ (OnScreen r c ∧ r' = r ∧ c' = c) := fun ⟨⟨a, b⟩, e1, e2⟩ => h' ⟨e1 ▸ a, e2 ▸ b⟩
      rw [if_neg this]
      simp [Framebuffer.pixel, h']
  · have : ¬ (OnScreen r c ∧ r' = r ∧ c' = c) := fun ⟨a, _⟩ => h a
    rw [if_neg this]
    simp [Framebuffer.toggle, h]

/-- Everything a list of distinct toggles does: the listed pixels of the screen are inverted, the others stay. -/
theorem Framebuffer.pixel_toggleAll (fb : Framebuffer) (ps : List (Nat × Nat)) (hd : ps.Nodup) (r c : Nat) :
    (fb.toggleAll ps).pixel r c = if OnScreen r c ∧ (r, c) ∈ ps then !(fb.pixel r c) else fb.pixel r c := by
  induction ps generalizing fb with
  | nil => simp [Framebuffer.toggleAll]
  | cons p ps ih =>
    obtain ⟨pr, pc⟩ := p
    rw [List.nodup_cons] at hd
    rw [Framebuffer.toggleAll, ih _ hd.2, Framebuffer.pixel_toggle]
    by_cases e : r = pr ∧ c = pc
    · obtain ⟨rfl, rfl⟩ := e
      simp [hd.1]
    · have h1 : ¬ (OnScreen pr pc ∧ r = pr ∧ c = pc) := fun h => e h.2
      have h2 : (r, c) ≠ (pr, pc) := fun h => e (by simpa using h)
      simp only [h1, if_false, List.mem_cons, h2, false_or]

@[simp] theorem Framebuffer.pixel_blank (r c : Nat) : Framebuffer.blank.pixel r c = false := by
  simp [Framebuffer.pixel, Framebuffer.blank]

theorem Framebuffer.ext_pixel {fb fb' : Framebuffer} (h : ∀ r c, OnScreen r c → fb.pixel r c = fb'.pixel r c) :
    fb = fb' := by
  apply Vector.ext
  intro r hr
  apply Vector.ext
  intro c hc
  have := h r c ⟨hr, hc⟩
  simpa [Framebuffer.pixel, hr, hc] using this

/-! ### The positions of a sprite -/

theorem mem_spriteRow (b : Byte) (r cx : Nat) (p : Nat × Nat) :
    p ∈ spriteRow b r cx ↔ p.1 = r ∧ ∃ c, c < 8 ∧ b.getLsbD (7 - c) = true ∧ p.2 = cx + c := by
  simp only [spriteRow, List.mem_map, List.mem_filter, List.mem_range]
  constructor
  · rintro ⟨c, ⟨h1, h2⟩, rfl⟩
    exact ⟨rfl, c, h1, h2, rfl⟩
  · rintro ⟨h, c, h1, h2, h3⟩
    exact ⟨c, ⟨h1, h2⟩, Prod.ext h.symm h3.symm⟩

/-- The set P of 46_display.md R171: row r's bit 7 - c stands for the position (cy + r, cx + c). -/
theorem mem_spritePositions (cx : Nat) (bs : List Byte) (cy : Nat) (p : Nat × Nat) :
    p ∈ spritePositions cx cy bs ↔
      ∃ r c, r < bs.length ∧ c < 8 ∧ (bs.getD r 0).getLsbD (7 - c) = true ∧ p = (cy + r, cx + c) := by
  induction bs generalizing cy with
  | nil => simp [spritePositions]
  | cons b bs ih =>
    simp only [spritePositions, List.mem_append, mem_spriteRow, ih, List.length_cons]
    constructor
    · rintro (⟨h, c, h1, h2, h3⟩ | ⟨r, c, hr, hc, hb, rfl⟩)
      · exact ⟨0, c, by omega, h1, by simpa using h2, Prod.ext h h3⟩
      · exact ⟨r + 1, c, by omega, hc, by simpa using hb, by simp; omega⟩
    · rintro ⟨r, c, hr, hc, hb, rfl⟩
      cases r with
      | zero => exact .inl ⟨rfl, c, hc, by simpa using hb, rfl⟩
      | succ r => exact .inr ⟨r, c, by omega, hc, by simpa using hb, by simp; omega⟩

theorem spriteRow_nodup (b : Byte) (r cx : Nat) : (spriteRow b r cx).Nodup := by
  refine (List.Nodup.filter _ List.nodup_range).map ?_
  intro c c' h
  have := congrArg Prod.snd h
  simp only at this
  omega

/-- The positions of a sprite are distinct (46_display.md R171). -/
theorem spritePositions_nodup (cx cy : Nat) (bs : List Byte) : (spritePositions cx cy bs).Nodup := by
  induction bs generalizing cy with
  | nil => exact List.nodup_nil
  | cons b bs ih =>
    simp only [spritePositions]
    refine (spriteRow_nodup b cy cx).append (ih (cy + 1)) ?_
    intro p hp hp'
    rw [mem_spriteRow] at hp
    rw [mem_spritePositions] at hp'
    obtain ⟨r, c, _, _, _, rfl⟩ := hp'
    have := hp.1
    simp only at this
    omega

theorem drawPositions_nodup (x y : RegNum) (n : BitVec 4) (s : State) : (drawPositions x y n s).Nodup :=
  spritePositions_nodup _ _ _

theorem offScreen_eq_false (p : Nat × Nat) : offScreen p = false ↔ OnScreen p.1 p.2 := by
  simp [offScreen, OnScreen]
  omega

end Sys2Proof.Machine
end

