-- ==== Sys2Proof/Laws/Step.lean ====
section
/-! SUPPORT. Everything the branching meanings and the cycle can do, one lemma per outcome and one inversion, so that no
proof splits their definitions. -/

namespace Sys2Proof.Machine

/-! ### Call and return -/

theorem execCall_of_eq {s : State} (nnn : BitVec 12) (h : s.sp.toNat = 16) :
    execCall nnn s = .fault (.stackOverflow s.pc) := by
  have e : s.sp = 16 := BitVec.eq_of_toNat_eq (by simpa using h)
  unfold execCall
  rw [if_pos e]
  rfl

theorem execCall_of_gt {s : State} (nnn : BitVec 12) (h : 16 < s.sp.toNat) :
    execCall nnn s = .fault (.stackPointerOutOfRange s.sp) := by
  have e : s.sp ≠ 16 := fun e => by simp [e] at h
  unfold execCall
  rw [if_neg e, if_pos h]
  rfl

theorem execCall_of_lt {s : State} (nnn : BitVec 12) (h : s.sp.toNat < 16) :
    execCall nnn s = .next ((s.push (s.pc + 2)).setPc (addrOfImm nnn)) := by
  have e : s.sp ≠ 16 := fun e => by simp [e] at h
  unfold execCall
  rw [if_neg e, if_neg (by omega)]
  rfl

theorem execCall_next {s t : State} {nnn : BitVec 12} (h : execCall nnn s = .next t) :
    s.sp.toNat < 16 ∧ t = (s.push (s.pc + 2)).setPc (addrOfImm nnn) := by
  rcases Nat.lt_trichotomy s.sp.toNat 16 with h1 | h1 | h1
  · rw [execCall_of_lt nnn h1] at h
    cases h
    exact ⟨h1, rfl⟩
  · rw [execCall_of_eq nnn h1] at h
    cases h
  · rw [execCall_of_gt nnn h1] at h
    cases h

theorem execRet_of_zero {s : State} (h : s.sp.toNat = 0) : execRet s = .fault (.stackUnderflow s.pc) := by
  have e : s.sp = 0 := BitVec.eq_of_toNat_eq (by simpa using h)
  unfold execRet
  rw [if_pos e]
  rfl

theorem execRet_of_gt {s : State} (h : 16 < s.sp.toNat) : execRet s = .fault (.stackPointerOutOfRange s.sp) := by
  have e : s.sp ≠ 0 := fun e => by simp [e] at h
  unfold execRet
  rw [if_neg e, if_pos h]
  rfl

theorem execRet_of_le {s : State} (h0 : s.sp.toNat ≠ 0) (h : s.sp.toNat ≤ 16) :
    execRet s = .next (s.drop.setPc s.top) := by
  have e : s.sp ≠ 0 := fun e => h0 (by simp [e])
  unfold execRet
  rw [if_neg e, if_neg (by omega)]
  rfl

theorem execRet_next {s t : State} (h : execRet s = .next t) :
    s.sp.toNat ≠ 0 ∧ s.sp.toNat ≤ 16 ∧ t = s.drop.setPc s.top := by
  by_cases h0 : s.sp.toNat = 0
  · rw [execRet_of_zero h0] at h
    cases h
  · by_cases h1 : 16 < s.sp.toNat
    · rw [execRet_of_gt h1] at h
      cases h
    · rw [execRet_of_le h0 (by omega)] at h
      cases h
      exact ⟨h0, by omega, rfl⟩

theorem sp_pred_toNat {s : State} (h : s.sp.toNat ≠ 0) : (s.sp - 1).toNat = s.sp.toNat - 1 := by
  have := s.sp.isLt
  rw [BitVec.toNat_sub]
  simp
  omega

theorem sp_succ_toNat {s : State} (h : s.sp.toNat < 16) : (s.sp + 1).toNat = s.sp.toNat + 1 := by
  rw [BitVec.toNat_add]
  simp
  omega

/-- Everything `push` does to the slots. -/
theorem push_stack {s : State} (a : Word) (k : Fin 16) :
    (s.push a).stack[k] = if k.val = s.sp.toNat then a else s.stack[k] := by
  simp only [State.push, Fin.getElem_fin, Vector.getElem_setIfInBounds]
  by_cases h : k.val = s.sp.toNat
  · simp [h]
  · simp [h, Ne.symm h]

/-- The slot a return reads. -/
theorem top_eq {s : State} (k : Fin 16) (h : s.sp.toNat = k.val + 1) : s.top = s.stack[k] := by
  have e := sp_pred_toNat (s := s) (by omega)
  have hk : (s.sp - 1).toNat = k.val := by omega
  have hk' := k.isLt
  simp only [State.top]
  rw [hk]
  simp [Vector.getD, hk']

/-! ### The bulk memory instructions -/

theorem execLdB_of_gt {s : State} (x : RegNum) (h : 4096 < s.I.toNat + 3) :
    execLdB x s = .fault (.memoryOutOfRange .data s.I 3) := by
  unfold execLdB
  rw [withData_eq, if_neg (by omega)]

theorem execLdB_of_le {s : State} (x : RegNum) (h : s.I.toNat + 3 ≤ 4096) :
    execLdB x s = .next (s.setMemory (s.memory.writeBytes s.I.toNat (bcdDigits (s.getV x)))).advance := by
  unfold execLdB
  rw [withData_eq, if_pos (by omega)]
  rfl

theorem execLdB_next {s t : State} {x : RegNum} (h : execLdB x s = .next t) :
    s.I.toNat + 3 ≤ 4096 ∧ t = (s.setMemory (s.memory.writeBytes s.I.toNat (bcdDigits (s.getV x)))).advance := by
  by_cases h1 : s.I.toNat + 3 ≤ 4096
  · rw [execLdB_of_le x h1] at h
    exact ⟨h1, (Host.Outcome.next.inj h).symm⟩
  · rw [execLdB_of_gt x (by omega)] at h
    cases h

theorem execStoreRegs_of_gt {s : State} (x : RegNum) (h : 4096 < s.I.toNat + (x.val + 1)) :
    execStoreRegs x s = .fault (.memoryOutOfRange .data s.I (x.val + 1)) := by
  unfold execStoreRegs
  rw [withData_eq, if_neg (by omega)]

theorem execStoreRegs_of_le {s : State} (x : RegNum) (h : s.I.toNat + (x.val + 1) ≤ 4096) :
    execStoreRegs x s =
      .next ((s.setMemory (s.memory.writeBytes s.I.toNat (regsUpTo s x))).setI (s.I + BitVec.ofNat 16 (x.val + 1))).advance := by
  unfold execStoreRegs
  rw [withData_eq, if_pos (by omega)]
  rfl

theorem execStoreRegs_next {s t : State} {x : RegNum} (h : execStoreRegs x s = .next t) :
    s.I.toNat + (x.val + 1) ≤ 4096 ∧
      t = ((s.setMemory (s.memory.writeBytes s.I.toNat (regsUpTo s x))).setI (s.I + BitVec.ofNat 16 (x.val + 1))).advance := by
  by_cases h1 : s.I.toNat + (x.val + 1) ≤ 4096
  · rw [execStoreRegs_of_le x h1] at h
    exact ⟨h1, (Host.Outcome.next.inj h).symm⟩
  · rw [execStoreRegs_of_gt x (by omega)] at h
    cases h

theorem execLoadRegs_of_gt {s : State} (x : RegNum) (h : 4096 < s.I.toNat + (x.val + 1)) :
    execLoadRegs x s = .fault (.memoryOutOfRange .data s.I (x.val + 1)) := by
  unfold execLoadRegs
  rw [withData_eq, if_neg (by omega)]

theorem execLoadRegs_of_le {s : State} (x : RegNum) (h : s.I.toNat + (x.val + 1) ≤ 4096) :
    execLoadRegs x s =
      .next ((s.setAllV (loadedRegs s x s.I.toNat)).setI (s.I + BitVec.ofNat 16 (x.val + 1))).advance := by
  unfold execLoadRegs
  rw [withData_eq, if_pos (by omega)]
  rfl

theorem execLoadRegs_next {s t : State} {x : RegNum} (h : execLoadRegs x s = .next t) :
    s.I.toNat + (x.val + 1) ≤ 4096 ∧
      t = ((s.setAllV (loadedRegs s x s.I.toNat)).setI (s.I + BitVec.ofNat 16 (x.val + 1))).advance := by
  by_cases h1 : s.I.toNat + (x.val + 1) ≤ 4096
  · rw [execLoadRegs_of_le x h1] at h
    exact ⟨h1, (Host.Outcome.next.inj h).symm⟩
  · rw [execLoadRegs_of_gt x (by omega)] at h
    cases h

/-- I past a block that lies in memory does not wrap. -/
theorem blockEnd_toNat {s : State} {x : RegNum} (h : s.I.toNat + (x.val + 1) ≤ 4096) :
    (s.I + BitVec.ofNat 16 (x.val + 1)).toNat = s.I.toNat + x.val + 1 := by
  simp only [BitVec.toNat_add, BitVec.toNat_ofNat]
  omega

/-! ### Draw -/

/-- The set P of 46_display.md R171 is what the meaning toggles. -/
theorem mem_drawPositions (x y : RegNum) (n : BitVec 4) (s : State) (r c : Nat) :
    (r, c) ∈ drawPositions x y n s ↔ SpriteSets x y n s r c := by
  simp only [drawPositions, mem_spritePositions, Memory.readBytes_length, SpriteSets, Prod.mk.injEq]
  constructor
  · rintro ⟨dr, dc, h1, h2, h3, h4, h5⟩
    refine ⟨dr, dc, h1, h2, ?_, h4, h5⟩
    rwa [List.getD_eq_getElem?_getD, Memory.readBytes_getElem? _ _ _ _ h1, Option.getD_some] at h3
  · rintro ⟨dr, dc, h1, h2, h3, h4, h5⟩
    refine ⟨dr, dc, h1, h2, ?_, h4, h5⟩
    rwa [List.getD_eq_getElem?_getD, Memory.readBytes_getElem? _ _ _ _ h1, Option.getD_some]

/-- The screen check under the rule of D5, in the words of 46_display.md R173. -/
theorem drawOutOfRange_iff (x y : RegNum) (n : BitVec 4) (s : State) :
    drawOutOfRange Config.hw.drawOobRule (s.getV x).toNat (s.getV y).toNat n.toNat (drawPositions x y n s) = true ↔
      ∃ r c, SpriteSets x y n s r c ∧ (31 < r ∨ 63 < c) := by
  simp only [drawOutOfRange, List.any_eq_true, Prod.exists, mem_drawPositions, offScreen,
    Bool.or_eq_true, decide_eq_true_eq]

/-- A pixel after a draw, in the words of 46_display.md R171. -/
theorem pixel_draw_of (x y : RegNum) (n : BitVec 4) (s : State) (fb : Framebuffer) {r c : Nat} (h : OnScreen r c)
    (h' : SpriteSets x y n s r c) : (fb.toggleAll (drawPositions x y n s)).pixel r c = !(fb.pixel r c) := by
  rw [Framebuffer.pixel_toggleAll _ _ (drawPositions_nodup x y n s), if_pos ⟨h, (mem_drawPositions x y n s r c).2 h'⟩]

theorem pixel_draw_of_not (x y : RegNum) (n : BitVec 4) (s : State) (fb : Framebuffer) {r c : Nat}
    (h : ¬ SpriteSets x y n s r c) : (fb.toggleAll (drawPositions x y n s)).pixel r c = fb.pixel r c := by
  rw [Framebuffer.pixel_toggleAll _ _ (drawPositions_nodup x y n s),
    if_neg (fun e => h ((mem_drawPositions x y n s r c).1 e.2))]

/-- The flag of a draw, in the words of 46_display.md R171. -/
theorem collisionFlag_eq_one (x y : RegNum) (n : BitVec 4) (s : State) (fb : Framebuffer) :
    collisionFlag fb (drawPositions x y n s) = 1 ↔ ∃ r c, SpriteSets x y n s r c ∧ fb.pixel r c = true := by
  simp only [collisionFlag, flagByte_eq_one, List.any_eq_true, Prod.exists, mem_drawPositions]

theorem execDrw_of_memory {s : State} (x y : RegNum) {n : BitVec 4} (h : n.toNat ≠ 0)
    (h' : 4096 < s.I.toNat + n.toNat) : execDrw x y n s = .fault (.memoryOutOfRange .data s.I n.toNat) := by
  unfold execDrw
  rw [withData_eq, if_neg (by omega)]

theorem execDrw_of_screen {s : State} {x y : RegNum} {n : BitVec 4} (h : n.toNat = 0 ∨ s.I.toNat + n.toNat ≤ 4096)
    (h' : ∃ r c, SpriteSets x y n s r c ∧ (31 < r ∨ 63 < c)) :
    execDrw x y n s = .fault (.framebufferOutOfRange (s.getV x) (s.getV y)) := by
  unfold execDrw
  rw [withData_eq, if_pos h, if_pos ((drawOutOfRange_iff x y n s).2 h')]
  rfl

theorem execDrw_of_ok {s : State} {x y : RegNum} {n : BitVec 4} (h : n.toNat = 0 ∨ s.I.toNat + n.toNat ≤ 4096)
    (h' : ¬ ∃ r c, SpriteSets x y n s r c ∧ (31 < r ∨ 63 < c)) :
    execDrw x y n s =
      .next ((s.setScreen (Framebuffer.toggleAll s.framebuffer (drawPositions x y n s))).setV flagReg
        (collisionFlag s.framebuffer (drawPositions x y n s))).advance := by
  unfold execDrw
  rw [withData_eq, if_pos h, if_neg (fun e => h' ((drawOutOfRange_iff x y n s).1 e))]
  rfl

theorem execDrw_next {s t : State} {x y : RegNum} {n : BitVec 4} (h : execDrw x y n s = .next t) :
    (n.toNat = 0 ∨ s.I.toNat + n.toNat ≤ 4096) ∧ (∀ r c, SpriteSets x y n s r c → r ≤ 31 ∧ c ≤ 63) ∧
      t = ((s.setScreen (Framebuffer.toggleAll s.framebuffer (drawPositions x y n s))).setV flagReg
        (collisionFlag s.framebuffer (drawPositions x y n s))).advance := by
  by_cases h1 : n.toNat = 0 ∨ s.I.toNat + n.toNat ≤ 4096
  · by_cases h2 : ∃ r c, SpriteSets x y n s r c ∧ (31 < r ∨ 63 < c)
    · rw [execDrw_of_screen h1 h2] at h
      cases h
    · rw [execDrw_of_ok h1 h2] at h
      cases h
      refine ⟨h1, fun r c hs => ?_, rfl⟩
      by_contra hc
      exact h2 ⟨r, c, hs, by omega⟩
  · rw [execDrw_of_memory x y (by omega) (by omega)] at h
    cases h

/-! ### The keypad -/

theorem execSkp_of_gt {s : State} {x : RegNum} (h : 15 < (s.getV x).toNat) :
    execSkp x s = .fault (.keyIndexOutOfRange (s.getV x)) := by
  unfold execSkp
  rw [withKey_eq, if_pos h]

theorem execSkp_of_le {s : State} {x : RegNum} (h : (s.getV x).toNat ≤ 15) :
    execSkp x s = .next (s.skipIf (s.keys.getLsbD (s.getV x).toNat)) := by
  unfold execSkp
  rw [withKey_eq, if_neg (by omega)]
  rfl

theorem execSknp_of_gt {s : State} {x : RegNum} (h : 15 < (s.getV x).toNat) :
    execSknp x s = .fault (.keyIndexOutOfRange (s.getV x)) := by
  unfold execSknp
  rw [withKey_eq, if_pos h]

theorem execSknp_of_le {s : State} {x : RegNum} (h : (s.getV x).toNat ≤ 15) :
    execSknp x s = .next (s.skipIf (!s.keys.getLsbD (s.getV x).toNat)) := by
  unfold execSknp
  rw [withKey_eq, if_neg (by omega)]
  rfl

theorem mem_pressedKeys (keys : Word) (k : Nat) : k ∈ pressedKeys keys ↔ k < 16 ∧ keys.getLsbD k = true := by
  simp [pressedKeys]

theorem pressedKeys_eq_nil (keys : Word) : pressedKeys keys = [] ↔ keys = 0 := by
  constructor
  · intro h
    apply BitVec.eq_of_getLsbD_eq
    intro k hk
    have := (mem_pressedKeys keys k).not.1 (by simp [h])
    simpa [hk] using this
  · rintro rfl
    simp [pressedKeys]

/-- The key reported is pressed and no lower key is (47_keypad.md R183; D8). -/
theorem selectKey_lowest {keys : Word} {k : Nat} (h : selectKey .lowestIndex keys = some k) :
    k < 16 ∧ keys.getLsbD k = true ∧ ∀ j, j < k → keys.getLsbD j = false := by
  simp only [selectKey] at h
  have hk := (mem_pressedKeys keys k).1 (List.mem_of_mem_head? h)
  refine ⟨hk.1, hk.2, fun j hj => ?_⟩
  by_contra hb
  have hj' : j ∈ pressedKeys keys := (mem_pressedKeys keys j).2 ⟨by omega, by simpa using hb⟩
  have hs : (pressedKeys keys).Pairwise (· < ·) := List.Pairwise.filter _ List.pairwise_lt_range
  obtain ⟨l, hl⟩ := List.head?_eq_some_iff.1 h
  rw [hl] at hj' hs
  rw [List.pairwise_cons] at hs
  rcases List.mem_cons.1 hj' with e | e
  · omega
  · have := hs.1 j e
    omega

theorem selectKey_lowest_none (keys : Word) : selectKey .lowestIndex keys = none ↔ keys = 0 := by
  rw [← pressedKeys_eq_nil]
  simp [selectKey]

/-- The wait: with no key pressed nothing changes. -/
theorem afterKeyWait_of_zero {s : State} (x : RegNum) (h : s.keys = 0) : afterKeyWait x s = s := by
  have := (selectKey_lowest_none s.keys).2 h
  simp only [afterKeyWait, this]

/-- With a key pressed, the lowest is written. -/
theorem afterKeyWait_of_ne {s : State} (x : RegNum) (h : s.keys ≠ 0) :
    ∃ k, selectKey .lowestIndex s.keys = some k ∧ afterKeyWait x s = (s.setV x (BitVec.ofNat 8 k)).advance := by
  cases hk : selectKey .lowestIndex s.keys with
  | none => exact absurd ((selectKey_lowest_none s.keys).1 hk) h
  | some k => exact ⟨k, rfl, by simp only [afterKeyWait, hk]⟩

/-- Everything Fx0A does. -/
theorem execLdVxK_eq (x : RegNum) (s : State) : execLdVxK x s = .next (afterKeyWait x s) := rfl

/-! ### The cycle -/

theorem fetch_error_iff (s : State) (f : Fault) :
    fetch s = .error f ↔ 4096 < s.pc.toNat + 2 ∧ f = .memoryOutOfRange .fetch s.pc 2 := by
  unfold fetch
  by_cases h : inMemory s.pc.toNat 2 = true
  · have := (inMemory_iff _ _).1 h
    rw [if_pos h]
    simp
    omega
  · have := (inMemory_iff s.pc.toNat 2).not.1 h
    rw [if_neg h]
    constructor
    · intro e
      cases e
      exact ⟨by omega, rfl⟩
    · rintro ⟨_, rfl⟩
      rfl

theorem cycle_of_error {s : State} {f : Fault} (h : fetch s = .error f) : cycle s = .fault f := by
  simp [cycle, h, raise]

theorem cycle_of_none {s : State} {w : Word} (h : fetch s = .ok w) (hd : decodeWord w = none) :
    cycle s = .fault (.unknownOpcode w s.pc) := by
  simp [cycle, h, hd, raise]

theorem cycle_of_some {s : State} {w : Word} {i : Instr} (h : fetch s = .ok w) (hd : decodeWord w = some i) :
    cycle s = exec i s := by
  simp [cycle, h, hd]

/-- Everything a cycle can be. -/
theorem cycle_cases (s : State) :
    (4096 < s.pc.toNat + 2 ∧ cycle s = .fault (.memoryOutOfRange .fetch s.pc 2)) ∨
    (∃ w, fetch s = .ok w ∧ decodeWord w = none ∧ cycle s = .fault (.unknownOpcode w s.pc)) ∨
    (∃ w i, fetch s = .ok w ∧ decodeWord w = some i ∧ cycle s = exec i s) := by
  cases hf : fetch s with
  | error f =>
    obtain ⟨h, rfl⟩ := (fetch_error_iff s f).1 hf
    exact .inl ⟨h, cycle_of_error hf⟩
  | ok w =>
    cases hd : decodeWord w with
    | none => exact .inr (.inl ⟨w, rfl, hd, cycle_of_none hf hd⟩)
    | some i => exact .inr (.inr ⟨w, i, rfl, hd, cycle_of_some hf hd⟩)

/-- A cycle that makes its writes ran an instruction, from a pc that admits a fetch. -/
theorem cycle_next {s t : State} (h : cycle s = .next t) :
    ∃ w i, s.pc.toNat + 2 ≤ 4096 ∧ fetch s = .ok w ∧ decodeWord w = some i ∧ exec i s = .next t := by
  rcases cycle_cases s with ⟨_, e⟩ | ⟨w, _, _, e⟩ | ⟨w, i, hf, hd, e⟩
  · rw [e] at h
    cases h
  · rw [e] at h
    cases h
  · exact ⟨w, i, ((fetch_ok_iff s w).1 hf).1, hf, hd, e ▸ h⟩

/-- The fetch reads pc and memory alone. -/
theorem fetch_congr {s t : State} (hpc : t.pc = s.pc) (hm : t.memory = s.memory) : fetch t = fetch s := by
  simp [fetch, hpc, hm]

end Sys2Proof.Machine
end

