-- ==== Sys2Proof/Tests/Slice0.lean ====
section
/-! SUPPORT. Tests of one word or one step each, their expected results taken from 95_test_vectors.md and the rules named
there (or computed by hand from a rule, where no vector is named), and for every statement with hypotheses a concrete
state that meets them. -/

namespace Sys2Proof.Tests

-- One theorem after another: the kernel checks of this file's many small theorems at once would need a thread each.
set_option Elab.async false

open Sys2Proof Sys2Proof.Machine

/-! ### Helpers -/

/-- The state with pc at `a`. -/
def startAt (a : Word) : State := State.reset.setPc a

/-- The state whose next environment entry is known: no tick, the flag not taken, these inputs. -/
def inputs (s : State) (keys : Word) (rnd : Byte) : State := { s with pending := [⟨0, false, keys, rnd⟩] }

/-- One step of a state with the word at pc. -/
def stepOn (w : Word) (s : State) (keys : Word := 0) (rnd : Byte := 0) : Result := step (inputs (s.placeWord w) keys rnd)

/-- A component of a result's state, or none where the step stops. -/
def peek {α : Type} (r : Result) (f : State → α) : Option α :=
  match r with
  | .next t => some (f t)
  | .fault _ => none
  | .refused _ => none

/-- A component of the state after that step, or none where it stops. -/
def after {α : Type} (w : Word) (s : State) (f : State → α) (keys : Word := 0) (rnd : Byte := 0) : Option α :=
  peek (stepOn w s keys rnd) f

/-- The fault of that step, if any. -/
def faultOf (w : Word) (s : State) (keys : Word := 0) (rnd : Byte := 0) : Option Fault :=
  match stepOn w s keys rnd with
  | .next _ => none
  | .fault f => some f
  | .refused _ => none

/-- A state with three registers set. -/
def regs3 (x : RegNum) (a : Byte) (y : RegNum) (b : Byte) (z : RegNum) (c : Byte) : State :=
  ((State.reset.setV z c).setV y b).setV x a

/-- The start of the ALU table: V1 = a, V2 = b, VF = 0xAA. -/
def aluStart (a b : Byte) : State := regs3 1 a 2 b 15 0xAA

/-- V1 and VF after a word from the ALU table's start. -/
def alu (w : Word) (a b : Byte) : Option (Byte × Byte) := after w (aluStart a b) fun t => (t.getV 1, t.getV 15)

/-- The bytes given from an address on, in a state with I there. -/
def dataAt (a : Nat) (bs : List Byte) : State :=
  (State.reset.setMemory (Memory.writeBytes [] a bs)).setI (BitVec.ofNat 16 a)

/-! ### Decoding: words written digit by digit from the patterns of 30_encoding.md R76 -/

theorem test_decode_flow :
    decodeWord 0x00EE = some .ret ∧ decodeWord 0x1ABC = some (.jp 0xABC) ∧ decodeWord 0x2ABC = some (.call 0xABC) ∧
      decodeWord 0xBABC = some (.jpV0 0xABC) := by decide +kernel

theorem test_decode_skips :
    decodeWord 0x3A05 = some (.seImm 0xA 0x05) ∧ decodeWord 0x4A05 = some (.sneImm 0xA 0x05) ∧
      decodeWord 0x5AB0 = some (.seReg 0xA 0xB) ∧ decodeWord 0x9AB0 = some (.sneReg 0xA 0xB) := by decide +kernel

theorem test_decode_immediates :
    decodeWord 0x6A05 = some (.ldImm 0xA 0x05) ∧ decodeWord 0x7A06 = some (.addImm 0xA 0x06) ∧
      decodeWord 0xC30F = some (.rnd 3 0x0F) := by decide +kernel

theorem test_decode_alu_low :
    decodeWord 0x8120 = some (.ldReg 1 2) ∧ decodeWord 0x8121 = some (.orReg 1 2) ∧ decodeWord 0x8122 = some (.andReg 1 2) ∧
      decodeWord 0x8123 = some (.xorReg 1 2) ∧ decodeWord 0x8124 = some (.addReg 1 2) := by decide +kernel

theorem test_decode_alu_high :
    decodeWord 0x8125 = some (.subReg 1 2) ∧ decodeWord 0x8126 = some (.shr 1 2) ∧ decodeWord 0x8127 = some (.subn 1 2) ∧
      decodeWord 0x812E = some (.shl 1 2) := by decide +kernel

theorem test_decode_index :
    decodeWord 0xA300 = some (.ldI 0x300) ∧ decodeWord 0xF21E = some (.addI 2) ∧ decodeWord 0xF029 = some (.ldF 0) ∧
      decodeWord 0xF133 = some (.ldB 1) ∧ decodeWord 0xF155 = some (.storeRegs 1) ∧
      decodeWord 0xF265 = some (.loadRegs 2) := by decide +kernel

theorem test_decode_display : decodeWord 0x00E0 = some .cls ∧ decodeWord 0xD012 = some (.drw 0 1 2) := by decide +kernel

theorem test_decode_keypad :
    decodeWord 0xE59E = some (.skp 5) ∧ decodeWord 0xE5A1 = some (.sknp 5) ∧ decodeWord 0xF30A = some (.ldVxK 3) := by
  decide +kernel

theorem test_decode_timers :
    decodeWord 0xF307 = some (.ldVxDT 3) ∧ decodeWord 0xF015 = some (.ldDTVx 0) ∧ decodeWord 0xF018 = some (.ldSTVx 0) := by
  decide +kernel

/-- S10: the fields of 0x6A05. -/
theorem test_fields :
    opField 0x6A05 = 6 ∧ xField 0x6A05 = 0xA ∧ yField 0x6A05 = 0 ∧ nField 0x6A05 = 5 ∧ nnField 0x6A05 = 0x05 ∧
      nnnField 0x6A05 = 0xA05 := by decide +kernel

theorem test_decode_bytes :
    decode [0x6A, 0x05, 0x7A] = .ok (.ldImm 0xA 0x05, [0x7A]) ∧ decode [0x50, 0x01] = .error (.unknownOpcode 0x5001) ∧
      decode [0x6A] = .error .truncated := ⟨rfl, rfl, rfl⟩

/-- The table's numbering: one 16-bit word, and a word given short of its bits. -/
theorem test_decodeTableWord :
    decodeTableWord 16 0xD012 = some (.drw 0 1 2) ∧ decodeTableWord 8 0xFFE0 = some .cls ∧ decodeTableWord 16 0 = none := by
  decide +kernel

/-! ### Well-formedness: for each check, ill-formed words it refuses (E2) -/

theorem test_illformed_group_0 :
    ([0x0000, 0x00E1, 0x00EF, 0x00FE, 0x01E0, 0x0123, 0x0FFF] : List Word).all (fun w => !wordWellFormed w) = true := by
  decide +kernel

theorem test_illformed_groups_5_8_9 :
    ([0x5001, 0x8008, 0x800F, 0x9001, 0x812D] : List Word).all (fun w => !wordWellFormed w) = true := by decide +kernel

theorem test_illformed_groups_E_F :
    ([0xE000, 0xE09D, 0xE1A2, 0xF000, 0xF01F, 0xF0FF, 0xF056, 0xF064, 0xF075, 0xF085, 0xFFFF] : List Word).all
      (fun w => !wordWellFormed w) = true := by decide +kernel

/-- Every row is well formed at its value, and the mnemonics are the instructions' own. -/
theorem test_rows_decode :
    opcodeTable.all (fun r => wordWellFormed r.value && (decodeWord r.value).map Instr.mnemonic == some r.mnemonic) = true := by
  decide +kernel

/-! ### Control transfer (F1 to F10, B11) -/

theorem test_jp : after 0x1208 State.reset State.pc = some 0x208 := by decide +kernel

theorem test_call :
    after 0x2210 (startAt 0x204) (fun t => (t.stack[0], t.sp, t.pc)) = some (0x0206, 1, 0x210) := by decide +kernel

theorem test_call_overflow : faultOf 0x2210 { State.reset with sp := 16 } = some (.stackOverflow 0x200) := by decide +kernel

theorem test_jpV0 : after 0xBFFF (State.reset.setV 0 0xFF) State.pc = some 0x10FE := by decide +kernel

theorem test_ret :
    after 0x00EE ((startAt 0x204).push 0x0206) (fun t => (t.sp, t.pc, t.stack[0])) = some (0, 0x206, 0x0206) := by
  decide +kernel

theorem test_ret_underflow : faultOf 0x00EE State.reset = some (.stackUnderflow 0x200) := by decide +kernel

/-! ### Skips (B1 to B8) -/

theorem test_seImm :
    after 0x3A05 ((startAt 0x220).setV 0xA 5) State.pc = some 0x224 ∧
      after 0x3A05 ((startAt 0x220).setV 0xA 6) State.pc = some 0x222 := by decide +kernel

theorem test_sneImm :
    after 0x4A05 ((startAt 0x220).setV 0xA 5) State.pc = some 0x222 ∧
      after 0x4A05 ((startAt 0x220).setV 0xA 6) State.pc = some 0x224 := by decide +kernel

theorem test_seReg :
    after 0x5AB0 (((startAt 0x220).setV 0xA 7).setV 0xB 7) State.pc = some 0x224 ∧
      after 0x5AB0 (((startAt 0x220).setV 0xA 7).setV 0xB 8) State.pc = some 0x222 := by decide +kernel

theorem test_sneReg :
    after 0x9AB0 (((startAt 0x220).setV 0xA 7).setV 0xB 7) State.pc = some 0x222 ∧
      after 0x9AB0 (((startAt 0x220).setV 0xA 7).setV 0xB 8) State.pc = some 0x224 := by decide +kernel

/-! ### Immediates (M1 to M4) -/

theorem test_ldImm : after 0x6A05 State.reset (fun t => (t.getV 0xA, t.pc)) = some (0x05, 0x202) := by decide +kernel

theorem test_addImm :
    after 0x7A02 (State.reset.setV 0xA 0xFF) (fun t => (t.getV 0xA, t.getV 15)) = some (0x01, 0x00) := by decide +kernel

theorem test_addImm_to_VF : after 0x7F01 (State.reset.setV 15 0xFF) (fun t => t.getV 15) = some 0x00 := by decide +kernel

theorem test_rnd : after 0xC30F State.reset (fun t => t.getV 3) 0 0xA7 = some 0x07 := by decide +kernel

/-! ### ALU: two rows of the table and the vectors A1 to A14 -/

theorem test_alu_logic :
    alu 0x8120 0x10 0x20 = some (0x20, 0xAA) ∧ alu 0x8121 0x10 0x20 = some (0x30, 0xAA) ∧
      alu 0x8122 0xFF 0x01 = some (0x01, 0xAA) ∧ alu 0x8123 0xFF 0x01 = some (0xFE, 0xAA) := by decide +kernel

theorem test_addReg :
    alu 0x8124 0x80 0x80 = some (0x00, 0x01) ∧ alu 0x8124 0x7F 0x01 = some (0x80, 0x00) := by decide +kernel

theorem test_subReg :
    alu 0x8125 0x10 0x20 = some (0xF0, 0x00) ∧ alu 0x8125 0x80 0x80 = some (0x00, 0x01) := by decide +kernel

theorem test_shr : alu 0x8126 0x01 0xFF = some (0x00, 0x01) ∧ alu 0x8126 0x80 0x80 = some (0x40, 0x00) := by decide +kernel

theorem test_subn : alu 0x8127 0x10 0x20 = some (0x10, 0x01) ∧ alu 0x8127 0xFF 0x01 = some (0x02, 0x00) := by decide +kernel

theorem test_shl : alu 0x812E 0xFF 0x01 = some (0xFE, 0x01) ∧ alu 0x812E 0x7F 0x01 = some (0xFE, 0x00) := by decide +kernel

/-- A1, A2, A4: with x = F the flag stands. -/
theorem test_alu_VF_destination :
    after 0x8F24 (regs3 15 0xF0 2 0x20 0 0) (fun t => t.getV 15) = some 0x01 ∧
      after 0x8F25 (regs3 15 0xF0 2 0x20 0 0) (fun t => t.getV 15) = some 0x01 ∧
      after 0x8F27 (regs3 15 0xF0 2 0x20 0 0) (fun t => t.getV 15) = some 0x00 := by decide +kernel

/-- A6, A9: with y = F the old VF is the operand. -/
theorem test_alu_VF_source :
    after 0x81F4 (regs3 1 5 15 3 0 0) (fun t => (t.getV 1, t.getV 15)) = some (0x08, 0x00) ∧
      after 0x81F7 (regs3 1 5 15 3 0 0) (fun t => (t.getV 1, t.getV 15)) = some (0xFE, 0x00) := by decide +kernel

/-- The parameter SHIFT_SOURCE (D9): the two values it can take. -/
theorem test_shiftReg : shiftReg .vx 1 2 = 1 ∧ shiftReg .vy 1 2 = 2 := by decide +kernel

/-! ### Index register and memory (X1 to X16) -/

theorem test_ldI : after 0xAFFF State.reset State.I = some 0x0FFF := by decide +kernel

theorem test_addI :
    after 0xF21E ((State.reset.setV 2 2).setI 0xFFFF) State.I = some 0x0001 ∧
      after 0xF21E (((State.reset.setV 2 1).setV 15 7).setI 0x0FFF) (fun t => (t.I, t.getV 15)) = some (0x1000, 0x07) := by
  decide +kernel

theorem test_ldF :
    after 0xF029 (State.reset.setV 0 0x0A) State.I = some 0x032 ∧
      after 0xF029 (State.reset.setV 0 0xFF) State.I = some 0x4FB := by decide +kernel

theorem test_ldB :
    after 0xF033 ((State.reset.setV 0 234).setI 0x300) (fun t => (t.memory.readBytes 0x300 3, t.I)) =
      some ([2, 3, 4], 0x300) := by decide +kernel

theorem test_ldB_fault :
    faultOf 0xF033 ((State.reset.setV 0 255).setI 0xFFE) = some (.memoryOutOfRange .data 0xFFE 3) := by decide +kernel

theorem test_storeRegs :
    after 0xF055 ((State.reset.setV 0 0x77).setI 0xFFF) (fun t => (t.memory.read 0xFFF, t.I)) = some (0x77, 0x1000) := by
  decide +kernel

theorem test_storeRegs_fault :
    faultOf 0xFF55 (State.reset.setI 0xFF1) = some (.memoryOutOfRange .data 0xFF1 16) := by decide +kernel

/-- X13. -/
theorem test_loadRegs :
    after 0xF165 ((dataAt 0xFFE [0xAA, 0xBB]).setV 2 0x33) (fun t => (t.getV 0, t.getV 1, t.getV 2, t.I)) =
      some (0xAA, 0xBB, 0x33, 0x1000) := by decide +kernel

/-- X15: the font is where reset puts it. -/
theorem test_loadRegs_font :
    after 0xF465 State.reset (fun t => (t.getV 0, t.getV 1, t.getV 4, t.getV 5, t.I)) = some (0xF0, 0x90, 0xF0, 0x00, 5) := by
  decide +kernel

/-- Writing back what an unlisted address reads as lists nothing. -/
theorem test_memory_canonical :
    Memory.write (Memory.write [] 0x300 7) 0x300 0 = [] ∧ Memory.write [] 0x000 0xF0 = [] ∧
      Memory.wf (Memory.write (Memory.write [] 0x300 7) 0x2FF 9) = true ∧ Memory.wf [(0x300, 0)] = false ∧
      Memory.wf [(0x300, 7), (0x2FF, 9)] = false ∧ Memory.wf [(0x1000, 7)] = false := by decide +kernel

/-! ### Display (G1, G2, G5, G9, G13, G18) -/

theorem test_cls :
    after 0x00E0 { State.reset with framebuffer := Framebuffer.blank.toggle 5 5, drawFlag := false }
      (fun t => (t.framebuffer.pixel 5 5, t.drawFlag, t.pc)) = some (false, true, 0x202) := by decide +kernel

/-- G2: the four pixels, and two neighbours that stay clear. -/
theorem test_drw :
    after 0xD012 (((dataAt 0x20C [0xC0, 0x81]).setV 0 2).setV 1 1)
      (fun t => ([(1, 2), (1, 3), (2, 2), (2, 9), (1, 4), (2, 3)].map fun p => t.framebuffer.pixel p.1 p.2, t.getV 15)) =
      some ([true, true, true, true, false, false], 0) := by decide +kernel

/-- G18: a set pixel is cleared and reported. -/
theorem test_drw_collision :
    after 0xD011 { dataAt 0x300 [0xF0] with framebuffer := Framebuffer.blank.toggle 0 3 }
      (fun t => (t.framebuffer.pixel 0 0, t.framebuffer.pixel 0 3, t.getV 15)) = some (true, false, 1) := by decide +kernel

theorem test_drw_screen_fault :
    faultOf 0xD015 (State.reset.setV 0 61) = some (.framebufferOutOfRange 0x3D 0x00) := by decide +kernel

/-- G9 under DRAW_OOB_RULE as it is; under the other value of the parameter it would fault (D5). -/
theorem test_drawOutOfRange_rules :
    drawOutOfRange .setBitsOnly 200 200 1 [] = false ∧ drawOutOfRange .wholeRectangle 200 200 1 [] = true ∧
      drawOutOfRange .wholeRectangle 200 200 0 [] = false ∧ drawOutOfRange .wholeRectangle 56 30 2 [] = false := by
  decide +kernel

/-! ### Keypad (K1 to K12) -/

theorem test_skp :
    after 0xE59E ((startAt 0x220).setV 5 7) State.pc 0x0080 = some 0x224 ∧
      after 0xE59E ((startAt 0x220).setV 5 7) State.pc 0xFF7F = some 0x222 := by decide +kernel

theorem test_sknp :
    after 0xE5A1 ((startAt 0x220).setV 5 7) State.pc 0x0080 = some 0x222 ∧
      after 0xE5A1 ((startAt 0x220).setV 5 7) State.pc 0xFF7F = some 0x224 := by decide +kernel

theorem test_key_faults :
    faultOf 0xE59E (State.reset.setV 5 0x10) 0xFFFF = some (.keyIndexOutOfRange 0x10) ∧
      faultOf 0xE5A1 (State.reset.setV 5 0xFF) = some (.keyIndexOutOfRange 0xFF) := by decide +kernel

/-- K10, K11. -/
theorem test_ldVxK :
    after 0xF30A (startAt 0x230) (fun t => (t.getV 3, t.pc)) 0x0210 = some (0x04, 0x232) ∧
      after 0xFF0A State.reset (fun t => t.getV 15) 0x8000 = some 0x0F := by decide +kernel

/-- K9: the wait leaves pc and V3 and answers WaitingForKey. -/
theorem test_ldVxK_waits :
    after 0xF30A (startAt 0x230) (fun t => (t.getV 3, t.pc)) 0 = some (0x00, 0x230) ∧
      (perform (.step 0 0) ((startAt 0x230).placeWord 0xF30A)).2 = .waitingForKey := by decide +kernel

/-- The parameter KEY_SELECT (D8): K10 under both values. -/
theorem test_selectKey :
    selectKey .lowestIndex 0x0210 = some 4 ∧ selectKey (.anyPressed 1) 0x0210 = some 9 ∧
      selectKey (.anyPressed 2) 0x0210 = some 4 ∧ selectKey (.anyPressed 3) 0 = none := by decide +kernel

/-! ### Timers and the other operations (T1 to T12) -/

theorem test_ldVxDT :
    after 0xF307 (State.reset.setDelay 0x2A) (fun t => (t.getV 3, t.delayTimer)) = some (0x2A, 0x2A) := by decide +kernel

theorem test_ldDTVx :
    after 0xF015 (State.reset.setV 0 3) (fun t => (t.delayTimer, t.soundTimer)) = some (3, 0) := by decide +kernel

theorem test_ldSTVx :
    after 0xF018 (State.reset.setV 0 3) (fun t => (t.delayTimer, t.soundTimer, t.soundActive)) = some (0, 3, true) := by
  decide +kernel

/-- T4 to T7. -/
theorem test_tick :
    tickOut 3 = ⟨true, false⟩ ∧ tickOut 2 = ⟨true, false⟩ ∧ tickOut 1 = ⟨false, true⟩ ∧ tickOut 0 = ⟨false, false⟩ ∧
      ((State.reset.setDelay 1).setSound 3).ticked = (State.reset.setDelay 0).setSound 2 := by decide +kernel

/-- T12. -/
theorem test_takeDrawFlag :
    (perform .takeDrawFlag State.reset).2 = .drawFlagWas true ∧
      (perform .takeDrawFlag (perform .takeDrawFlag State.reset).1).2 = .drawFlagWas false := by decide +kernel

/-- T11. -/
theorem test_reset :
    (perform .reset ((State.reset.setSound 5).setDelay 9)).1 = State.reset ∧ State.reset.soundActive = false := by
  decide +kernel

theorem test_load :
    ((perform (.load [0x6A, 0x05]) State.reset).1.memory, (perform (.load [0x6A, 0x05]) State.reset).2) =
      ([(0x200, 0x6A), (0x201, 0x05)], .loadOk) := by decide +kernel

/-! ### Fetch and the step (E1, E3 to E6) -/

theorem test_step_unknown_after_reset : step State.reset = .fault (.unknownOpcode 0x0000 0x200) := rfl

theorem test_step_odd_pc : after 0x6A05 (startAt 0x201) (fun t => (t.getV 0xA, t.pc)) = some (0x05, 0x203) := by
  decide +kernel

theorem test_step_last_word : after 0x6001 (startAt 0xFFE) (fun t => (t.getV 0, t.pc)) = some (0x01, 0x1000) := by
  decide +kernel

theorem test_step_fetch_fault : step (startAt 0xFFF) = .fault (.memoryOutOfRange .fetch 0xFFF 2) := rfl

theorem test_step_in_font : step (startAt 0) = .fault (.unknownOpcode 0xF090 0x000) := rfl

/-- The environment of a step: two ticks, the flag taken, then 6A05 on the new inputs; the entry is used up. -/
theorem test_step_environment :
    peek (step { (State.reset.setDelay 5).placeWord 0x6A05 with pending := [⟨2, true, 0x0080, 0x11⟩] })
      (fun t => (t.getV 0xA, t.delayTimer, t.drawFlag, t.keys, t.rnd)) = some (0x05, 3, false, 0x0080, 0x11) := by
  decide +kernel

theorem test_step_uses_the_entry :
    peek (step { State.reset.placeWord 0x6A05 with pending := [⟨2, true, 0x0080, 0x11⟩] })
      (fun t => (t.pending, t.drawn)) = some ([], 0) := by decide +kernel

theorem test_environment_pulses :
    State.environmentPulses { State.reset.setSound 2 with pending := [⟨3, false, 0, 0⟩] } =
      [⟨true, false⟩, ⟨false, true⟩, ⟨false, false⟩] := by decide +kernel

/-- withFetchWord places a table word where the step fetches; even with nothing known of the environment the step runs
it. -/
theorem test_withFetchWord :
    peek (step (State.reset.withFetchWord 16 0x6A05)) (fun t => (t.getV 0xA, t.pc)) = some (0x05, 0x202) := by
  decide +kernel

theorem test_withFetchWord_short : (State.reset.withFetchWord 8 0xFFE0).memory = [(0x201, 0xE0)] := by decide +kernel

/-! ### Witnesses: for every statement with hypotheses, a state and operands that meet them, at the boundary values of each
clause -/

theorem witness_EncodeOfDecodeIsTheWord : decodeWord 0xFF65 = some (.loadRegs 15) := by decide +kernel

theorem witness_DecoderAgreesWithOpcodeTable :
    (⟨"SHR_Vx", 0xF00F, 0x8006⟩ : OpcodeRow) ∈ opcodeTable ∧ (0x81A6 : Word) &&& 0xF00F = 0x8006 := by decide +kernel

/-- At the last pc a fetch is possible at. -/
theorem witness_StepRunsTheDecodedInstruction :
    ∃ s : State, s.pc.toNat = 0xFFE ∧
      decodeWord (s.memory.read s.pc.toNat ++ s.memory.read (s.pc.toNat + 1)) = some (.jp 0x234) :=
  ⟨(startAt 0xFFE).placeWord 0x1234, by decide +kernel, by decide +kernel⟩

theorem witness_EnvironmentActsBeforeTheStep :
    State.reset.pending = [] ∧ (inputs State.reset 1 2).pending = [⟨0, false, 1, 2⟩] := by decide +kernel

theorem witness_FetchReadsTwoBytesOrFaults :
    (startAt 0xFFE).pc.toNat ≤ 0xFFE ∧ 0xFFE < (startAt 0xFFF).pc.toNat := by decide +kernel

theorem witness_UnknownWordFaults :
    State.reset.pc.toNat ≤ 0xFFE ∧
      decodeWord (State.reset.memory.read State.reset.pc.toNat ++ State.reset.memory.read (State.reset.pc.toNat + 1)) =
        none := by decide +kernel

theorem witness_InputsAreReadOnlyWhereNamed :
    (∀ x nn, Instr.skp 3 ≠ .rnd x nn) ∧ ∀ x, Instr.rnd 3 0xFF ≠ .skp x ∧ Instr.rnd 3 0xFF ≠ .sknp x ∧
      Instr.rnd 3 0xFF ≠ .ldVxK x :=
  ⟨fun _ _ => by simp, fun _ => by simp⟩

/-- Both clauses: a skip at the last pc, a step that faults, and a step that waits. -/
theorem witness_ProgramCounterLaw :
    (∃ s t : State, s.pc.toNat = 0xFFE ∧ exec (.seImm 0 0) s = .next t) ∧
      (perform (.step 0 0) State.reset).2 = .fault (.unknownOpcode 0 0x200) ∧
      (perform (.step 0 0) (State.reset.placeWord 0xF00A)).2 = .waitingForKey :=
  ⟨⟨startAt 0xFFE, _, by decide +kernel, rfl⟩, by decide +kernel, by decide +kernel⟩

/-- Each disjunct of the fault table, under the premise on sp. -/
theorem witness_InstructionsFaultOnlyAsTheTableSays :
    exec (.call 0) { State.reset with sp := 16 } = .fault (.stackOverflow 0x200) ∧
      exec .ret State.reset = .fault (.stackUnderflow 0x200) ∧
      exec (.ldB 0) (State.reset.setI 0xFFE) = .fault (.memoryOutOfRange .data 0xFFE 3) ∧
      exec (.skp 0) (State.reset.setV 0 16) = .fault (.keyIndexOutOfRange 16) :=
  ⟨execCall_of_eq 0 (by decide +kernel), execRet_of_zero (by decide +kernel), execLdB_of_gt 0 (by decide +kernel),
    execSkp_of_gt (by decide +kernel)⟩

theorem witness_StepsWriteOnlyWhatTheTableSays : ∃ t, exec (.storeRegs 15) (State.reset.setI 0xFF0) = .next t :=
  ⟨_, execStoreRegs_of_le 15 (by decide +kernel)⟩

theorem witness_RegistersChangeOnlyAsDestinations :
    ∃ t, exec (.addReg 15 2) State.reset = .next t ∧ ¬ writesReg 2 (.addReg 15 2) ∧ WritesFlag (.addReg 15 2) :=
  ⟨_, rfl, by simp [writesReg], trivial⟩

theorem witness_FaultedStepFaultsAgain : cycle State.reset = .fault (.unknownOpcode 0 0x200) := rfl

theorem witness_Inv : Inv State.reset :=
  ⟨by decide +kernel, by decide +kernel, fun _ h => absurd h (Nat.not_lt_zero _), by decide +kernel⟩

/-- From the reset state with a jump to itself loaded; that state meets the invariant. -/
theorem witness_StepKeepsInvariant :
    ∃ s t : State, Inv s ∧ step s = .next t :=
  ⟨State.reset.placeWord 0x1200, _,
    ⟨placeWord_wf witness_Inv.memory_wf _, by decide +kernel, fun _ h => absurd h (Nat.not_lt_zero _), by decide +kernel⟩,
    rfl⟩

theorem witness_OperationsKeepInvariant : Inv State.reset := witness_Inv

theorem witness_ReachableStatesMeetInvariantAndSpecFaults :
    Reachable State.reset ∧ cycle State.reset = .fault (.unknownOpcode 0 0x200) := ⟨.reset, rfl⟩

theorem witness_JumpSetsPc : (0xFFF : BitVec 12).toNat = 0xFFF := by decide +kernel

/-- The call's clauses at sp = 15 and 16, from the last pc. -/
theorem witness_CallPushesReturnAddress :
    (startAt 0xFFE).sp.toNat < 16 ∧ (startAt 0xFFE).pc.toNat = 0xFFE ∧ ({ State.reset with sp := 15 } : State).sp.toNat < 16 ∧
      ({ State.reset with sp := 16 } : State).sp.toNat = 16 := by decide +kernel

theorem witness_ReturnPopsPc :
    State.reset.sp.toNat = 0 ∧ ({ State.reset with sp := 1 } : State).sp.toNat = (0 : Fin 16).val + 1 ∧
      ({ State.reset with sp := 16 } : State).sp.toNat = (15 : Fin 16).val + 1 := by decide +kernel

theorem witness_StackPointerBeyondTheStackStops : 16 < ({ State.reset with sp := 17 } : State).sp.toNat := by decide +kernel

theorem witness_ReturnAfterCallComesBack : ∃ t, exec (.call 0x210) { State.reset with sp := 15 } = .next t :=
  ⟨_, execCall_of_lt 0x210 (by decide +kernel)⟩

theorem witness_SkipsOnImmediate :
    (startAt 0xFFE).pc.toNat = 0xFFE ∧ ((startAt 0xFFE).getV 0).toNat = (0 : Byte).toNat := by decide +kernel

theorem witness_ArithmeticIdentities :
    (1 : RegNum) ≠ 15 ∧ (∃ t, exec (.addReg 1 2) State.reset = .next t) ∧ (∃ t, exec (.subReg 1 2) State.reset = .next t) ∧
      (∃ t, exec (.subn 1 2) State.reset = .next t) ∧ (∃ t, exec (.shr 1 2) State.reset = .next t) ∧
      ∃ t, exec (.shl 1 2) State.reset = .next t :=
  ⟨by decide +kernel, ⟨_, rfl⟩, ⟨_, rfl⟩, ⟨_, rfl⟩, ⟨_, rfl⟩, ⟨_, rfl⟩⟩

/-- x not 0xF, and a register that is neither x nor VF. -/
theorem witness_AddSetsCarry : (14 : RegNum) ≠ 15 ∧ (3 : RegNum) ≠ 14 ∧ (3 : RegNum) ≠ 15 := by decide +kernel

theorem witness_SubtractionsSetNotBorrow : (0 : RegNum) ≠ 15 ∧ (3 : RegNum) ≠ 0 ∧ (3 : RegNum) ≠ 15 := by decide +kernel

theorem witness_ShiftsDropOneBitIntoVF : (0 : RegNum) ≠ 15 ∧ (14 : RegNum) ≠ 0 ∧ (14 : RegNum) ≠ 15 := by decide +kernel

/-- A register other than the destination. -/
theorem witness_RandomIsTheInputMasked : (3 : RegNum) ≠ 15 := by decide +kernel

theorem witness_AssignAndLogicWriteVxOnly : (15 : RegNum) ≠ 3 := by decide +kernel

/-- Both clauses at their common boundary, 0xFFE and 0xFFD. -/
theorem witness_BcdStoresThreeDigits :
    State.reset.memory.wf = true ∧ 0xFFF < (State.reset.setI 0xFFE).I.toNat + 2 ∧
      (State.reset.setI 0xFFD).I.toNat + 2 ≤ 0xFFF := by decide +kernel

/-- Both clauses at their common boundary, of Fx55 and of Fx65. -/
theorem witness_StoreRegistersFromIUpward :
    State.reset.memory.wf = true ∧ 0xFFF < (State.reset.setI 0xFF1).I.toNat + (15 : RegNum).val ∧
      (State.reset.setI 0xFF0).I.toNat + (15 : RegNum).val ≤ 0xFFF := by decide +kernel

theorem witness_LoadRegistersFromIUpward :
    0xFFF < (State.reset.setI 0x1000).I.toNat + (0 : RegNum).val ∧
      (State.reset.setI 0xFFF).I.toNat + (0 : RegNum).val ≤ 0xFFF := by decide +kernel

/-- The state right after the store, with I set back, is such a `t'`; and the load without setting I back completes. -/
theorem witness_StoreThenLoadGivesRegistersBack :
    ∃ s t t' u : State, s.memory.wf = true ∧ exec (.storeRegs 2) s = .next t ∧ t'.I = s.I ∧
      (∀ a, t'.memory.read a = t.memory.read a) ∧ exec (.loadRegs 2) t = .next u :=
  ⟨State.reset.setI 0x300, _, _, _, by decide +kernel, execStoreRegs_of_le 2 (by decide +kernel),
    State.setI_I (((State.reset.setI 0x300).setMemory
      ((State.reset.setI 0x300).memory.writeBytes 0x300 (regsUpTo (State.reset.setI 0x300) 2))).setI 0x303).advance 0x300,
    fun _ => rfl, execLoadRegs_of_le 2 (by decide +kernel)⟩

/-- At the highest pc of the premise. -/
theorem witness_StoredBytesAreFetchedNext :
    ∃ s t : State, s.memory.wf = true ∧ 1 ≤ (1 : RegNum).val ∧ s.I = s.pc + 2 ∧ s.pc.toNat ≤ 0xFFC ∧
      exec (.storeRegs 1) s = .next t :=
  ⟨(startAt 0xFFC).setI 0xFFE, _, by decide +kernel, by decide +kernel, by decide +kernel, by decide +kernel,
    execStoreRegs_of_le 1 (by decide +kernel)⟩

/-- The bottom-right corner: one pixel at row 31, column 63, from the last byte of memory (G12). -/
theorem witness_DrawInvertsTheSpritePositions :
    ∃ s : State, s.I.toNat + (1 : BitVec 4).toNat - 1 ≤ 0xFFF ∧ SpriteSets 0 1 1 s 31 63 ∧
      ∀ r c, SpriteSets 0 1 1 s r c → r ≤ 31 ∧ c ≤ 63 := by
  refine ⟨((dataAt 0xFFF [0x80]).setV 0 63).setV 1 31, by decide +kernel, ⟨0, 0, by decide +kernel, by decide +kernel,
    by decide +kernel, by decide +kernel, by decide +kernel⟩, fun r c h => ?_⟩
  have hp : drawPositions 0 1 1 (((dataAt 0xFFF [0x80]).setV 0 63).setV 1 31) = [(31, 63)] := by decide +kernel
  have hm := (mem_drawPositions 0 1 1 _ r c).2 h
  rw [hp, List.mem_singleton, Prod.mk.injEq] at hm
  omega

/-- The two clauses: a row at 0x1000 (G11), and a set bit at column 64 (G5's edge). -/
theorem witness_DrawOutOfBoundsFaults :
    (0 < (2 : BitVec 4).toNat ∧ 0xFFF < (State.reset.setI 0xFFF).I.toNat + (2 : BitVec 4).toNat - 1) ∧
      SpriteSets 0 1 1 ((dataAt 0x300 [0x08]).setV 0 60) 0 64 :=
  ⟨by decide +kernel, 0, 4, by decide +kernel, by decide +kernel, by decide +kernel, by decide +kernel, by decide +kernel⟩

/-- A draw whose coordinates are not VF (n = 0, G10). -/
theorem witness_DrawTwiceRestoresTheScreen :
    ∃ s t : State, exec (.drw 0 1 0) s = .next t ∧ t.getV 0 = s.getV 0 ∧ t.getV 1 = s.getV 1 := by
  refine ⟨State.reset, _, execDrw_of_ok (.inl (by decide +kernel)) ?_, by decide +kernel, by decide +kernel⟩
  rintro ⟨_, _, ⟨_, _, h, _⟩, _⟩
  exact absurd h (Nat.not_lt_zero _)

/-- The two clauses at Vx = 15 and 16. -/
theorem witness_KeySkipsTestTheSnapshot :
    ((State.reset.setV 0 15).getV 0).toNat ≤ 15 ∧ 15 < ((State.reset.setV 0 16).getV 0).toNat := by decide +kernel

theorem witness_KeyReadTakesTheLowestPressed : ({ State.reset with keys := 0x8000 } : State).keys ≠ 0 := by decide +kernel

theorem witness_WaitingChangesNothing :
    fetch (State.reset.placeWord 0xF30A) = .ok (encode (.ldVxK 3)) ∧
      (perform (.step 0 0) (State.reset.placeWord 0xF30A)).2 = .waitingForKey := ⟨rfl, by decide +kernel⟩

theorem witness_TicksCountDownToZero :
    (State.reset.setDelay 60).delayTimer = 60 ∧ (State.reset.setSound 60).soundTimer = 60 := by decide +kernel

theorem witness_DelayTimerRisesOnlyByItsLoad :
    ∃ s t : State, step s = .next t ∧ ∀ x, fetch s ≠ .ok (encode (.ldDTVx x)) := by
  refine ⟨State.reset.placeWord 0x1200, _, rfl, fun x h => ?_⟩
  have hf : fetch (State.reset.placeWord 0x1200) = .ok 0x1200 := rfl
  rw [hf] at h
  have hx : ∀ x : RegNum, (0x1200 : Word) ≠ encode (.ldDTVx x) := by decide +kernel
  exact hx x (Except.ok.inj h)

theorem witness_TakingTheDrawFlagClearsIt :
    Op.tick ≠ .takeDrawFlag ∧ State.reset.drawFlag = true ∧ ∃ t, exec .cls State.reset = .next t :=
  ⟨by decide +kernel, rfl, _, rfl⟩

/-- The two clauses at 3584 and 3585 bytes. -/
theorem witness_LoadCopiesTheProgram :
    State.reset.memory.wf = true ∧ (List.replicate 3584 (0xAB : Byte)).length ≤ 3584 ∧
      3584 < (List.replicate 3585 (0xAB : Byte)).length :=
  ⟨by decide +kernel, by rw [List.length_replicate], by rw [List.length_replicate]; decide⟩

theorem witness_SelfJumpSpins : EndsInSelfJump (State.reset.placeWord 0x1200) := ⟨0x200, rfl, rfl⟩

end Sys2Proof.Tests
end

/-! SUPPORT. The pc law (40_fetch_decode.md R94): pc on unbounded integers after each way an instruction ends
(advance, skip, jump, call, return, key wait), and what a step that waits or faults answers. -/

namespace Sys2Proof.Machine

/-! ### pc as an unbounded integer -/

theorem addrOfImm_toNat (nnn : BitVec 12) : (addrOfImm nnn).toNat = nnn.toNat := by
  have := nnn.isLt
  simp only [addrOfImm, BitVec.toNat_setWidth]
  omega

theorem wordOfByte_toNat (b : Byte) : (wordOfByte b).toNat = b.toNat := by
  have := b.isLt
  simp only [wordOfByte, BitVec.toNat_setWidth]
  omega

/-- V0 + nnn fits in 16 bits (41_flow.md R102; D17). -/
theorem wordOfByte_add_addrOfImm_toNat (b : Byte) (nnn : BitVec 12) :
    (wordOfByte b + addrOfImm nnn).toNat = b.toNat + nnn.toNat := by
  have := b.isLt
  have := nnn.isLt
  rw [BitVec.toNat_add, wordOfByte_toNat, addrOfImm_toNat]
  omega

/-- From a pc that admits a fetch, passing the instruction does not wrap. -/
theorem State.advance_pc_toNat {s : State} (h : s.pc.toNat ≤ 0xFFE) : s.advance.pc.toNat = s.pc.toNat + 2 := by
  rw [State.advance_pc]
  bv_omega

/-- From a pc that admits a fetch, neither side of a skip wraps. -/
theorem State.skipIf_pc_toNat {s : State} (c : Bool) (h : s.pc.toNat ≤ 0xFFE) :
    (s.skipIf c).pc.toNat = pcAfterSkip c s := by
  cases c
  · exact State.advance_pc_toNat h
  · simp only [State.skipIf_pc, pcAfterSkip, if_true]
    bv_omega

theorem top_eq_getD {s : State} (h : s.sp.toNat ≠ 0) : s.top = s.stack.getD (s.sp.toNat - 1) 0 := by
  rw [State.top, sp_pred_toNat h]

theorem afterKeyWait_pc_toNat {s : State} (x : RegNum) (h : s.pc.toNat ≤ 0xFFE) :
    (afterKeyWait x s).pc.toNat = if s.keys = 0 then s.pc.toNat else s.pc.toNat + 2 := by
  split
  case isTrue h0 => rw [afterKeyWait_of_zero x h0]
  case isFalse h0 =>
    obtain ⟨k, -, e⟩ := afterKeyWait_of_ne x h0
    rw [e]
    exact State.advance_pc_toNat h

/-! ### The inversions of the key skips -/

theorem execSkp_next {s t : State} {x : RegNum} (h : execSkp x s = .next t) :
    (s.getV x).toNat ≤ 15 ∧ t = s.skipIf (s.keys.getLsbD (s.getV x).toNat) := by
  obtain ⟨hx, e⟩ := withKey_next h
  exact ⟨hx, (Host.Outcome.next.inj e).symm⟩

theorem execSknp_next {s t : State} {x : RegNum} (h : execSknp x s = .next t) :
    (s.getV x).toNat ≤ 15 ∧ t = s.skipIf (!s.keys.getLsbD (s.getV x).toNat) := by
  obtain ⟨hx, e⟩ := withKey_next h
  exact ⟨hx, (Host.Outcome.next.inj e).symm⟩

/-! ### pc after an instruction -/

/-- The end of every instruction that passes on to the next: its writes leave pc alone. -/
theorem pc_toNat_of_eq_advance {s t u : State} (hpc : s.pc.toNat ≤ 0xFFE) (ht : t = u.advance) (hu : u.pc = s.pc) :
    t.pc.toNat = s.pc.toNat + 2 := by
  rw [ht, State.advance_pc_toNat (hu ▸ hpc), hu]

/-- Every instruction that makes its writes leaves pc as the table of 40_fetch_decode.md R94 says. -/
theorem exec_next_pc_toNat {i : Instr} {s t : State} (hpc : s.pc.toNat ≤ 0xFFE) (h : exec i s = .next t) :
    t.pc.toNat = pcAfter i s := by
  cases i with
  | jp nnn =>
    rw [← Host.Outcome.next.inj h]
    exact addrOfImm_toNat nnn
  | jpV0 nnn =>
    rw [← Host.Outcome.next.inj h]
    exact wordOfByte_add_addrOfImm_toNat (s.getV 0) nnn
  | call nnn =>
    obtain ⟨-, rfl⟩ := execCall_next h
    exact addrOfImm_toNat nnn
  | ret =>
    obtain ⟨h0, -, rfl⟩ := execRet_next h
    exact congrArg BitVec.toNat (top_eq_getD h0)
  | seImm _ _ | sneImm _ _ | seReg _ _ | sneReg _ _ =>
    rw [← Host.Outcome.next.inj h]
    exact State.skipIf_pc_toNat _ hpc
  | skp x =>
    obtain ⟨-, rfl⟩ := execSkp_next h
    exact State.skipIf_pc_toNat _ hpc
  | sknp x =>
    obtain ⟨-, rfl⟩ := execSknp_next h
    exact State.skipIf_pc_toNat _ hpc
  | ldVxK x =>
    rw [← Host.Outcome.next.inj h]
    exact afterKeyWait_pc_toNat x hpc
  | drw x y n =>
    obtain ⟨-, -, ht⟩ := execDrw_next h
    exact pc_toNat_of_eq_advance hpc ht rfl
  | ldB x =>
    obtain ⟨-, ht⟩ := execLdB_next h
    exact pc_toNat_of_eq_advance hpc ht rfl
  | storeRegs x =>
    obtain ⟨-, ht⟩ := execStoreRegs_next h
    exact pc_toNat_of_eq_advance hpc ht rfl
  | loadRegs x =>
    obtain ⟨-, ht⟩ := execLoadRegs_next h
    exact pc_toNat_of_eq_advance hpc ht (by rw [State.setI_pc, State.setAllV_pc])
  | cls | ldImm _ _ | addImm _ _ | rnd _ _ | ldVxDT _ | ldDTVx _ | ldSTVx _ | ldReg _ _ | orReg _ _ | andReg _ _
  | xorReg _ _ | addReg _ _ | subReg _ _ | shr _ _ | subn _ _ | shl _ _ | ldI _ | addI _ | ldF _ =>
    exact pc_toNat_of_eq_advance hpc (Host.Outcome.next.inj h).symm rfl

/-! ### The step operation: waits and faults -/

theorem waitsIn_iff (i : Instr) (s : State) : waitsIn i s = true ↔ (∃ x, i = .ldVxK x) ∧ s.keys = 0 := by
  cases i <;> simp [waitsIn]

/-- A state waits when it fetches Fx0A and no key is pressed. -/
theorem State.waitsForKey_iff (s : State) :
    s.waitsForKey = true ↔ (∃ w x, fetch s = .ok w ∧ decodeWord w = some (.ldVxK x)) ∧ s.keys = 0 := by
  cases hf : fetch s with
  | error f => simp [State.waitsForKey, hf]
  | ok w => cases hd : decodeWord w <;> simp [State.waitsForKey, hf, hd, waitsIn_iff]

/-- A cycle that waits changes nothing (47_keypad.md R183). -/
theorem cycle_of_waitsForKey {s : State} (h : s.waitsForKey = true) : cycle s = .next s := by
  obtain ⟨⟨w, x, hf, hd⟩, h0⟩ := s.waitsForKey_iff.1 h
  rw [cycle_of_some hf hd]
  exact congrArg Host.Outcome.next (afterKeyWait_of_zero x h0)

/-- Everything the step operation can be. -/
theorem perform_step_cases (s : State) (keys : Word) (rnd : Byte) :
    (∃ t, cycle (s.present keys rnd) = .next t ∧ perform (.step keys rnd) s =
      (t, if (s.present keys rnd).waitsForKey then .waitingForKey else .continued)) ∨
    (∃ f, cycle (s.present keys rnd) = .fault f ∧ perform (.step keys rnd) s = (s.present keys rnd, .fault f)) ∨
    (∃ r, cycle (s.present keys rnd) = .refused r ∧ perform (.step keys rnd) s = (s.present keys rnd, .refused r)) := by
  cases hc : cycle (s.present keys rnd) with
  | next t => exact .inl ⟨t, rfl, by simp only [perform, hc]⟩
  | fault f => exact .inr (.inl ⟨f, rfl, by simp only [perform, hc]⟩)
  | refused r => exact .inr (.inr ⟨r, rfl, by simp only [perform, hc]⟩)

/-- A step that does not answer `Continue` leaves the state it was presented with (60_exceptions.md R202, 47_keypad.md
R183). -/
theorem perform_step_fst_of_ne_continued {s : State} {keys : Word} {rnd : Byte}
    (h : (perform (.step keys rnd) s).2 ≠ .continued) : (perform (.step keys rnd) s).1 = s.present keys rnd := by
  obtain ⟨t, hc, e⟩ | ⟨f, -, e⟩ | ⟨r, -, e⟩ := perform_step_cases s keys rnd
  · rw [e] at h ⊢
    split at h
    case isTrue hw => exact (Host.Outcome.next.inj ((cycle_of_waitsForKey hw).symm.trans hc)).symm
    case isFalse => exact absurd rfl h
  · rw [e]
  · rw [e]

/-- Settles O11, by the table of R94 case by case, and because a step that faults or waits leaves the presented state. -/
theorem programCounterLaw : Obligations.ProgramCounterLaw := by
  refine ⟨fun i s t hpc h => exec_next_pc_toNat hpc h, fun s keys rnd h => ?_⟩
  have hne : (perform (.step keys rnd) s).2 ≠ .continued := by
    obtain ⟨f, hf⟩ | hw := h
    · simp [hf]
    · simp [hw]
  rw [perform_step_fst_of_ne_continued hne, State.present_pc]

end Sys2Proof.Machine

/-! SUPPORT. Jump and call (41_flow.md R100, R101): the encoding of an instruction with a twelve-bit address, the frames
of the pc write and of the push and how frames compose, the return after a push, and the step from a pc that admits no
fetch. -/

namespace Sys2Proof.Machine

/-! ### Encoding of a digit and an address -/

theorem decodeWord_of_opField_one {w : Word} (h : opField w = 0x1#4) : decodeWord w = some (.jp (nnnField w)) := by
  simp [decodeWord, h]

theorem decodeWord_of_opField_two {w : Word} (h : opField w = 0x2#4) : decodeWord w = some (.call (nnnField w)) := by
  simp [decodeWord, h]

theorem encodedAs_jp (nnn : BitVec 12) : EncodedAs 0xF000 0x1000 (.jp nnn) := by
  obtain ⟨hop, hnnn⟩ := fields_of_addr 0x1#4 nnn (w := encode (.jp nnn)) rfl
  refine ⟨eq_of_beq (Laws.accepts_digit 0x1#4 nnn _ _ _ rfl rfl rfl), ?_⟩
  rw [decodeWord_of_opField_one hop, hnnn]

theorem encodedAs_call (nnn : BitVec 12) : EncodedAs 0xF000 0x2000 (.call nnn) := by
  obtain ⟨hop, hnnn⟩ := fields_of_addr 0x2#4 nnn (w := encode (.call nnn)) rfl
  refine ⟨eq_of_beq (Laws.accepts_digit 0x2#4 nnn _ _ _ rfl rfl rfl), ?_⟩
  rw [decodeWord_of_opField_two hop, hnnn]

/-! ### Frames -/

theorem Agree.trans {c : Component} {s t u : State} (h : Agree c s t) (h' : Agree c t u) : Agree c s u := by
  cases c with
  | memory | V | stack => exact fun k => (h' k).trans (h k)
  | framebuffer => exact fun r k => (h' r k).trans (h r k)
  | I | pc | sp | delayTimer | soundTimer | drawFlag => exact Eq.trans h' h

theorem SameEnvironment.trans {s t u : State} (h : SameEnvironment s t) (h' : SameEnvironment t u) :
    SameEnvironment s u := by
  obtain ⟨hk, hr, hp, hd⟩ := h
  obtain ⟨hk', hr', hp', hd'⟩ := h'
  exact ⟨hk'.trans hk, hr'.trans hr, hp'.trans hp, hd'.trans hd⟩

/-- What two changes in a row leave alone. -/
theorem OnlyChanges.trans {cs : List Component} {s t u : State} (h : OnlyChanges cs s t) (h' : OnlyChanges cs t u) :
    OnlyChanges cs s u :=
  ⟨fun c hc => (h.1 c hc).trans (h'.1 c hc), h.2.trans h'.2⟩

theorem OnlyChanges.mono {cs cs' : List Component} {s t : State} (h : OnlyChanges cs s t) (hcs : cs ⊆ cs') :
    OnlyChanges cs' s t :=
  ⟨fun c hc => h.1 c fun hm => hc (hcs hm), h.2⟩

theorem onlyChanges_setPc (s : State) (a : Word) : OnlyChanges [.pc] s (s.setPc a) := by
  refine ⟨fun c hc => ?_, rfl, rfl, rfl, rfl⟩
  cases c with
  | pc => exact absurd (List.mem_singleton_self _) hc
  | memory | V | stack => exact fun _ => rfl
  | framebuffer => exact fun _ _ => rfl
  | I | sp | delayTimer | soundTimer | drawFlag => rfl

theorem onlyChanges_push (s : State) (a : Word) : OnlyChanges [.sp, .stack] s (s.push a) := by
  refine ⟨fun c hc => ?_, rfl, rfl, rfl, rfl⟩
  cases c with
  | sp | stack => exact absurd (by decide) hc
  | memory | V => exact fun _ => rfl
  | framebuffer => exact fun _ _ => rfl
  | I | pc | delayTimer | soundTimer | drawFlag => rfl

/-! ### A fetch beyond memory, and the return after a push -/

/-- The environment acts before the fetch and leaves pc alone (40_fetch_decode.md R91; D4). -/
theorem step_of_pc_gt {s : State} (h : 0xFFE < s.pc.toNat) : step s = .fault (.memoryOutOfRange .fetch s.pc 2) :=
  cycle_of_error ((fetch_error_iff s.environment _).2 ⟨by rw [State.environment_pc]; omega, rfl⟩)

theorem step_setPc_of_gt (s : State) {a : Word} (h : 0xFFE < a.toNat) :
    step (s.setPc a) = .fault (.memoryOutOfRange .fetch a 2) :=
  step_of_pc_gt h

theorem top_push {s : State} (a : Word) (h : s.sp.toNat < 16) : (s.push a).top = a := by
  rw [top_eq ⟨s.sp.toNat, h⟩ (sp_succ_toNat h), push_stack, if_pos rfl]

/-- A return pops what was pushed, wherever control went in between. -/
theorem execRet_push_setPc {s : State} (a b : Word) (h : s.sp.toNat < 16) :
    execRet ((s.push a).setPc b) = .next (((s.push a).setPc b).drop.setPc a) := by
  have hsp : ((s.push a).setPc b).sp.toNat = s.sp.toNat + 1 := sp_succ_toNat h
  have htop : ((s.push a).setPc b).top = a := top_push a h
  rw [execRet_of_le (by omega) (by omega), htop]

/-! ### The obligations -/

/-- Settles O20: a jump is one write of pc, and 0xFFF is a pc that admits no fetch. -/
theorem jumpSetsPc : Obligations.JumpSetsPc := by
  intro nnn s
  refine ⟨encodedAs_jp nnn, s.setPc (addrOfImm nnn), rfl, addrOfImm_toNat nnn, onlyChanges_setPc s _, fun h => ?_⟩
  have hpc : addrOfImm nnn = 0xFFF#16 := BitVec.eq_of_toNat_eq ((addrOfImm_toNat nnn).trans h)
  rw [hpc]
  exact step_setPc_of_gt _ (by decide)

/-- Settles O21: a call is a push and one write of pc, and the return after it takes the pushed address. -/
theorem callPushesReturnAddress : Obligations.CallPushesReturnAddress := by
  intro nnn s
  refine ⟨encodedAs_call nnn, fun h => execCall_of_eq nnn h, fun h => ?_⟩
  have hframe : OnlyChanges [.pc, .sp, .stack] s ((s.push (s.pc + 2)).setPc (addrOfImm nnn)) :=
    ((onlyChanges_push s _).mono (by decide)).trans ((onlyChanges_setPc _ _).mono (by decide))
  refine ⟨_, execCall_of_lt nnn h, push_stack _, sp_succ_toNat h, addrOfImm_toNat nnn, hframe, fun hpc => ?_⟩
  have hret : s.pc + 2 = 0x1000#16 := by bv_omega
  refine ⟨_, execRet_push_setPc _ _ h, ?_⟩
  rw [hret]
  exact step_setPc_of_gt _ (by decide)

end Sys2Proof.Machine

/-! SUPPORT. The skips on an immediate (42_skip.md R110 to R112): the encoding of an instruction with a register and a
byte, and what a skip does to pc, to the rest of the state and, taken at the last fetch address, to the next step. -/

namespace Sys2Proof.Machine

/-! ### Encoding of a digit, a register and a byte -/

theorem decodeWord_of_opField_three {w : Word} (h : opField w = 0x3#4) :
    decodeWord w = some (.seImm (xField w) (nnField w)) := by
  simp [decodeWord, h]

theorem decodeWord_of_opField_four {w : Word} (h : opField w = 0x4#4) :
    decodeWord w = some (.sneImm (xField w) (nnField w)) := by
  simp [decodeWord, h]

theorem encodedAs_seImm (x : RegNum) (nn : Byte) : EncodedAs 0xF000 0x3000 (.seImm x nn) := by
  obtain ⟨hop, hx, hnn⟩ := fields_of_byte 0x3#4 (regBits x) nn (w := encode (.seImm x nn)) rfl
  refine ⟨eq_of_beq (Laws.accepts_digit_byte 0x3#4 (regBits x) nn _ _ _ rfl rfl rfl), ?_⟩
  rw [decodeWord_of_opField_three hop, hx, hnn, regBits_toFin]

theorem encodedAs_sneImm (x : RegNum) (nn : Byte) : EncodedAs 0xF000 0x4000 (.sneImm x nn) := by
  obtain ⟨hop, hx, hnn⟩ := fields_of_byte 0x4#4 (regBits x) nn (w := encode (.sneImm x nn)) rfl
  refine ⟨eq_of_beq (Laws.accepts_digit_byte 0x4#4 (regBits x) nn _ _ _ rfl rfl rfl), ?_⟩
  rw [decodeWord_of_opField_four hop, hx, hnn, regBits_toFin]

/-! ### What a skip does -/

/-- A skip writes nothing but pc (42_skip.md R110). -/
theorem onlyChanges_skipIf (s : State) (c : Bool) : OnlyChanges [.pc] s (s.skipIf c) :=
  onlyChanges_setPc s _

theorem State.skipIf_beq_pc (s : State) (a b : Byte) :
    (s.skipIf (a == b)).pc = if a.toNat = b.toNat then s.pc + 4 else s.pc + 2 := by
  simp only [State.skipIf_pc, beq_iff_eq, BitVec.toNat_inj]

/-- The skip on inequality is the complement of the skip on equality (42_skip.md R112, R114). -/
theorem State.skipIf_bne_pc (s : State) (a b : Byte) :
    (s.skipIf (a != b)).pc = if a.toNat = b.toNat then s.pc + 2 else s.pc + 4 := by
  simp only [State.skipIf_pc, bne_iff_ne, ne_eq, ite_not, BitVec.toNat_inj]

/-- A skip taken at the last address that admits a fetch leaves pc where none is admitted (42_skip.md R111). -/
theorem step_of_pc_eq_skip {s t : State} (hs : s.pc.toNat = 0xFFE) (ht : t.pc = s.pc + 4) :
    step t = .fault (.memoryOutOfRange .fetch 0x1002 2) := by
  have hpc : t.pc = 0x1002 := by bv_omega
  rw [step_of_pc_gt (by simp [hpc]), hpc]

/-! ### The obligation -/

/-- Settles O26: both are one skip, on the two Boolean comparisons of Vx with nn. -/
theorem skipsOnImmediate : Obligations.SkipsOnImmediate := by
  intro x nn s
  have hse := State.skipIf_beq_pc s (s.getV x) nn
  have hsne := State.skipIf_bne_pc s (s.getV x) nn
  exact ⟨encodedAs_seImm x nn, encodedAs_sneImm x nn,
    ⟨_, rfl, hse, onlyChanges_skipIf s _, fun hpc heq => step_of_pc_eq_skip hpc (hse.trans (if_pos heq))⟩,
    ⟨_, rfl, hsne, onlyChanges_skipIf s _⟩⟩

end Sys2Proof.Machine

/-! SUPPORT. The load and the add of an immediate (43_immediate.md R120, R121): their encodings, and the frame of one
register write followed by the advance. -/

namespace Sys2Proof.Machine

/-! ### Encoding -/

theorem decodeWord_of_opField_six {w : Word} (h : opField w = 0x6#4) :
    decodeWord w = some (.ldImm (xField w) (nnField w)) := by
  simp [decodeWord, h]

theorem decodeWord_of_opField_seven {w : Word} (h : opField w = 0x7#4) :
    decodeWord w = some (.addImm (xField w) (nnField w)) := by
  simp [decodeWord, h]

theorem encodedAs_ldImm (x : RegNum) (nn : Byte) : EncodedAs 0xF000 0x6000 (.ldImm x nn) := by
  obtain ⟨hop, hx, hnn⟩ := fields_of_byte 0x6#4 (regBits x) nn (w := encode (.ldImm x nn)) rfl
  refine ⟨eq_of_beq (Laws.accepts_digit_byte 0x6#4 (regBits x) nn _ _ _ rfl rfl rfl), ?_⟩
  rw [decodeWord_of_opField_six hop, hx, hnn, regBits_toFin]

theorem encodedAs_addImm (x : RegNum) (nn : Byte) : EncodedAs 0xF000 0x7000 (.addImm x nn) := by
  obtain ⟨hop, hx, hnn⟩ := fields_of_byte 0x7#4 (regBits x) nn (w := encode (.addImm x nn)) rfl
  refine ⟨eq_of_beq (Laws.accepts_digit_byte 0x7#4 (regBits x) nn _ _ _ rfl rfl rfl), ?_⟩
  rw [decodeWord_of_opField_seven hop, hx, hnn, regBits_toFin]

/-! ### One register write, then the advance -/

theorem onlyChanges_setV (s : State) (x : RegNum) (b : Byte) : OnlyChanges [.V] s (s.setV x b) := by
  refine ⟨fun c hc => ?_, rfl, rfl, rfl, rfl⟩
  cases c with
  | V => exact absurd (List.mem_singleton_self _) hc
  | memory | stack => exact fun _ => rfl
  | framebuffer => exact fun _ _ => rfl
  | I | pc | sp | delayTimer | soundTimer | drawFlag => rfl

theorem onlyChanges_advance (s : State) : OnlyChanges [.pc] s s.advance :=
  onlyChanges_setPc s _

theorem onlyChanges_setV_advance (s : State) (x : RegNum) (b : Byte) :
    OnlyChanges [.V, .pc] s (s.setV x b).advance :=
  ((onlyChanges_setV s x b).mono (by decide)).trans ((onlyChanges_advance _).mono (by decide))

/-! ### The obligation -/

/-- Settles O28: both are one write of Vx and the advance, and a sum of bytes is the sum modulo 256. -/
theorem immediateLoadAndAdd : Obligations.ImmediateLoadAndAdd := by
  intro x nn s
  refine ⟨encodedAs_ldImm x nn, encodedAs_addImm x nn,
    ⟨_, rfl, fun r => State.setV_getV s x r nn, rfl, onlyChanges_setV_advance s x nn⟩,
    ⟨_, rfl, fun r => ?_, rfl, onlyChanges_setV_advance s x _⟩⟩
  rw [State.advance_getV, State.setV_getV, apply_ite BitVec.toNat, BitVec.toNat_add]

end Sys2Proof.Machine

/-! SUPPORT. The assignment and the logic operations on two registers (44_alu.md R132 to R135): the encoding of group 8,
and the registers and bits after one register write followed by the advance. -/

namespace Sys2Proof.Machine

/-! ### Encoding of group 8 -/

theorem decodeWord_of_opField_eight {w : Word} (h : opField w = 0x8#4) : decodeWord w = decodeAlu w := by
  simp [decodeWord, h]

/-- An instruction of group 8 is told by its last digit. -/
theorem encodedAs_alu {op : RegNum → RegNum → Instr} {n : BitVec 4} {v : Word} (x y : RegNum)
    (henc : encode (op x y) = 0x8#4 ++ regBits x ++ regBits y ++ n) (hv : v = 0x8#4 ++ 0#8 ++ n)
    (hdec : ∀ w, nField w = n → decodeAlu w = some (op (xField w) (yField w))) : EncodedAs 0xF00F v (op x y) := by
  obtain ⟨hop, hx, hy, hn⟩ := fields_of_digits 0x8#4 (regBits x) (regBits y) n henc
  refine ⟨eq_of_beq (Laws.accepts_two_digits 0x8#4 (regBits x) (regBits y) n _ _ _ rfl hv henc), ?_⟩
  rw [decodeWord_of_opField_eight hop, hdec _ hn, hx, hy, regBits_toFin, regBits_toFin]

theorem encodedAs_ldReg (x y : RegNum) : EncodedAs 0xF00F 0x8000 (.ldReg x y) :=
  encodedAs_alu x y rfl rfl fun w h => by simp [decodeAlu, h]

theorem encodedAs_orReg (x y : RegNum) : EncodedAs 0xF00F 0x8001 (.orReg x y) :=
  encodedAs_alu x y rfl rfl fun w h => by simp [decodeAlu, h]

theorem encodedAs_andReg (x y : RegNum) : EncodedAs 0xF00F 0x8002 (.andReg x y) :=
  encodedAs_alu x y rfl rfl fun w h => by simp [decodeAlu, h]

theorem encodedAs_xorReg (x y : RegNum) : EncodedAs 0xF00F 0x8003 (.xorReg x y) :=
  encodedAs_alu x y rfl rfl fun w h => by simp [decodeAlu, h]

/-! ### The registers after one write and the advance -/

theorem getLsbD_setV_advance (s : State) (x : RegNum) (b : Byte) (k : Nat) :
    ((s.setV x b).advance.getV x).getLsbD k = b.getLsbD k :=
  congrArg (BitVec.getLsbD · k) (State.setV_getV_same s x b)

/-- What an instruction that ends in one write of Vx does beside that write: the other registers stay, VF among them. -/
theorem setV_advance_frame (s : State) (x : RegNum) (b : Byte) :
    (∀ r, r ≠ x → (s.setV x b).advance.getV r = s.getV r) ∧ (s.setV x b).advance.pc = s.pc + 2 ∧
      OnlyChanges [.V, .pc] s (s.setV x b).advance :=
  ⟨fun _ hr => State.setV_getV_ne s b hr, rfl, onlyChanges_setV_advance s x b⟩

/-! ### The obligation -/

/-- Settles O29: each of the four is one write of Vx and the advance, and the logic operations on bytes are bit by bit. -/
theorem assignAndLogicWriteVxOnly : Obligations.AssignAndLogicWriteVxOnly := by
  intro x y s
  exact ⟨⟨encodedAs_ldReg x y, encodedAs_orReg x y, encodedAs_andReg x y, encodedAs_xorReg x y⟩,
    ⟨_, rfl, fun r => State.setV_getV s x r _, rfl, onlyChanges_setV_advance s x _⟩,
    ⟨_, rfl, fun k => (getLsbD_setV_advance s x _ k).trans BitVec.getLsbD_or, setV_advance_frame s x _⟩,
    ⟨_, rfl, fun k => (getLsbD_setV_advance s x _ k).trans BitVec.getLsbD_and, setV_advance_frame s x _⟩,
    ⟨_, rfl, fun k => (getLsbD_setV_advance s x _ k).trans BitVec.getLsbD_xor, setV_advance_frame s x _⟩⟩

end Sys2Proof.Machine

/-! SUPPORT. Loading and adding to I, and the round trip of a block of registers through memory (45_index_memory.md R150,
R151, R157): what the bytes read as after the store, what the registers are after the load, and the frame of one write of
I followed by the advance. -/

namespace Sys2Proof.Machine

/-! ### The block a store of registers writes -/

theorem read_writeBytes_regsUpTo {s : State} {x r : RegNum} (hwf : s.memory.wf = true)
    (hle : s.I.toNat + (x.val + 1) ≤ 4096) (hr : r ≤ x) :
    (s.memory.writeBytes s.I.toNat (regsUpTo s x)).read (s.I.toNat + r.val) = s.getV r := by
  have hrx : r.val ≤ x.val := hr
  have hin : s.I.toNat ≤ s.I.toNat + r.val ∧ s.I.toNat + r.val < s.I.toNat + (x.val + 1) := by omega
  rw [Memory.read_writeBytes hwf (by rwa [regsUpTo_length]), regsUpTo_length, if_pos hin, Nat.add_sub_cancel_left,
    List.getD_eq_getElem?_getD, regsUpTo_getElem s x r hr, Option.getD_some]

theorem read_writeBytes_regsUpTo_of_not_mem {s : State} {x : RegNum} {a : Nat} (hwf : s.memory.wf = true)
    (hle : s.I.toNat + (x.val + 1) ≤ 4096) (ha : ¬ (s.I.toNat ≤ a ∧ a ≤ s.I.toNat + x.val)) :
    (s.memory.writeBytes s.I.toNat (regsUpTo s x)).read a = s.memory.read a := by
  rw [Memory.read_writeBytes hwf (by rwa [regsUpTo_length]), regsUpTo_length, if_neg (by omega)]

/-! ### The registers after a load -/

theorem execLoadRegs_next_getV {s t : State} {x r : RegNum} (h : execLoadRegs x s = .next t) (hr : r ≤ x) :
    t.getV r = s.memory.read (s.I.toNat + r.val) := by
  obtain ⟨-, rfl⟩ := execLoadRegs_next h
  rw [State.advance_getV, State.setI_getV, State.setAllV_getV, loadedRegs_getElem, if_pos hr]

/-! ### The round trip -/

/-- Settles O40: the load reads the registers out of the bytes the store left at I, and from the state after the store,
whose I is past the block, it reads the bytes the store left alone. -/
theorem storeThenLoadGivesRegistersBack : Obligations.StoreThenLoadGivesRegistersBack := by
  intro x s t hwf hstore
  obtain ⟨hle, rfl⟩ := execStoreRegs_next hstore
  refine ⟨fun t' hI hblock => ?_, fun u hload r hr => ?_⟩
  · have hload := execLoadRegs_of_le (s := t') x (by rwa [hI])
    refine ⟨_, hload, fun r hr => ?_, (blockEnd_toNat (by rwa [hI])).trans (by rw [hI])⟩
    have hrx : r.val ≤ x.val := hr
    rw [execLoadRegs_next_getV hload hr, hI]
    exact (hblock _ (by omega) (by omega)).trans (read_writeBytes_regsUpTo hwf hle hr)
  · calc u.getV r
      _ = (s.memory.writeBytes s.I.toNat (regsUpTo s x)).read
            ((s.I + BitVec.ofNat 16 (x.val + 1)).toNat + r.val) := execLoadRegs_next_getV hload hr
      _ = (s.memory.writeBytes s.I.toNat (regsUpTo s x)).read (s.I.toNat + x.val + 1 + r.val) := by
            rw [blockEnd_toNat hle]
      _ = s.memory.read (s.I.toNat + x.val + 1 + r.val) := read_writeBytes_regsUpTo_of_not_mem hwf hle (by omega)

/-! ### Encoding of groups A and F -/

theorem decodeWord_of_opField_ten {w : Word} (h : opField w = 0xA#4) : decodeWord w = some (.ldI (nnnField w)) := by
  simp [decodeWord, h]

theorem decodeWord_of_opField_fifteen {w : Word} (h : opField w = 0xF#4) : decodeWord w = decodeMisc w := by
  simp [decodeWord, h]

theorem encodedAs_ldI (nnn : BitVec 12) : EncodedAs 0xF000 0xA000 (.ldI nnn) := by
  obtain ⟨hop, hnnn⟩ := fields_of_addr 0xA#4 nnn (w := encode (.ldI nnn)) rfl
  refine ⟨eq_of_beq (Laws.accepts_digit 0xA#4 nnn _ _ _ rfl rfl rfl), ?_⟩
  rw [decodeWord_of_opField_ten hop, hnnn]

/-- An instruction of group F is told by its low byte. -/
theorem encodedAs_misc {op : RegNum → Instr} {b : Byte} {v : Word} (x : RegNum)
    (henc : encode (op x) = 0xF#4 ++ regBits x ++ b) (hv : v = 0xF#4 ++ 0#4 ++ b)
    (hdec : ∀ w, nnField w = b → decodeMisc w = some (op (xField w))) : EncodedAs 0xF0FF v (op x) := by
  obtain ⟨hop, hx, hb⟩ := fields_of_byte 0xF#4 (regBits x) b henc
  refine ⟨eq_of_beq (Laws.accepts_digit_and_byte 0xF#4 (regBits x) b _ _ _ rfl hv henc), ?_⟩
  rw [decodeWord_of_opField_fifteen hop, hdec _ hb, hx, regBits_toFin]

theorem encodedAs_addI (x : RegNum) : EncodedAs 0xF0FF 0xF01E (.addI x) :=
  encodedAs_misc x rfl rfl fun w h => by simp [decodeMisc, h]

/-! ### One write of I, then the advance -/

theorem onlyChanges_setI (s : State) (a : Word) : OnlyChanges [.I] s (s.setI a) := by
  refine ⟨fun c hc => ?_, rfl, rfl, rfl, rfl⟩
  cases c with
  | I => exact absurd (List.mem_singleton_self _) hc
  | memory | V | stack => exact fun _ => rfl
  | framebuffer => exact fun _ _ => rfl
  | pc | sp | delayTimer | soundTimer | drawFlag => rfl

theorem onlyChanges_setI_advance (s : State) (a : Word) : OnlyChanges [.I, .pc] s (s.setI a).advance :=
  ((onlyChanges_setI s a).mono (by decide)).trans ((onlyChanges_advance _).mono (by decide))

/-- Settles O35: both are one write of I and the advance, and a sum of words is the sum modulo 65536. -/
theorem indexLoadAndAdd : Obligations.IndexLoadAndAdd := by
  intro x nnn s
  refine ⟨encodedAs_ldI nnn, encodedAs_addI x,
    ⟨_, rfl, addrOfImm_toNat nnn, rfl, onlyChanges_setI_advance s _⟩,
    ⟨_, rfl, ?_, rfl, onlyChanges_setI_advance s _⟩⟩
  rw [State.advance_I, State.setI_I, BitVec.toNat_add, wordOfByte_toNat]

end Sys2Proof.Machine

/-! SUPPORT. Clearing the screen (46_display.md R170): the encoding of 00E0, and the frame of one write of the framebuffer
and drawFlag followed by the advance. -/

namespace Sys2Proof.Machine

/-! ### Encoding -/

theorem encodedAs_cls : EncodedAs 0xFFFF 0x00E0 .cls :=
  ⟨rfl, rfl⟩

/-! ### One write of the screen, then the advance -/

theorem onlyChanges_setScreen (s : State) (fb : Framebuffer) :
    OnlyChanges [.framebuffer, .drawFlag] s (s.setScreen fb) := by
  refine ⟨fun c hc => ?_, rfl, rfl, rfl, rfl⟩
  cases c with
  | framebuffer | drawFlag => exact absurd (by decide) hc
  | memory | V | stack => exact fun _ => rfl
  | I | pc | sp | delayTimer | soundTimer => rfl

theorem onlyChanges_setScreen_advance (s : State) (fb : Framebuffer) :
    OnlyChanges [.framebuffer, .drawFlag, .pc] s (s.setScreen fb).advance :=
  ((onlyChanges_setScreen s fb).mono (by decide)).trans ((onlyChanges_advance _).mono (by decide))

/-! ### The obligation -/

/-- Settles O42: the clear is one write of the blank screen, which sets drawFlag whatever the screen was, and the advance. -/
theorem clearBlanksTheScreen : Obligations.ClearBlanksTheScreen := by
  intro s
  exact ⟨encodedAs_cls, _, rfl, Framebuffer.pixel_blank, rfl, rfl, onlyChanges_setScreen_advance s Framebuffer.blank⟩

end Sys2Proof.Machine

/-! SUPPORT. Reading and writing the delay timer (48_timer_instr.md R190, R191): the encodings of Fx07 and Fx15, and the
frame of one write of the delay timer followed by the advance. -/

namespace Sys2Proof.Machine

/-! ### Encoding -/

theorem encodedAs_ldVxDT (x : RegNum) : EncodedAs 0xF0FF 0xF007 (.ldVxDT x) :=
  encodedAs_misc x rfl rfl fun w h => by simp [decodeMisc, h]

theorem encodedAs_ldDTVx (x : RegNum) : EncodedAs 0xF0FF 0xF015 (.ldDTVx x) :=
  encodedAs_misc x rfl rfl fun w h => by simp [decodeMisc, h]

/-! ### One write of the delay timer, then the advance -/

theorem onlyChanges_setDelay (s : State) (b : Byte) : OnlyChanges [.delayTimer] s (s.setDelay b) := by
  refine ⟨fun c hc => ?_, rfl, rfl, rfl, rfl⟩
  cases c with
  | delayTimer => exact absurd (List.mem_singleton_self _) hc
  | memory | V | stack => exact fun _ => rfl
  | framebuffer => exact fun _ _ => rfl
  | I | pc | sp | soundTimer | drawFlag => rfl

theorem onlyChanges_setDelay_advance (s : State) (b : Byte) :
    OnlyChanges [.delayTimer, .pc] s (s.setDelay b).advance :=
  ((onlyChanges_setDelay s b).mono (by decide)).trans ((onlyChanges_advance _).mono (by decide))

/-! ### The obligation -/

/-- Settles O49: Fx07 is one write of Vx and Fx15 one write of the delay timer, each followed by the advance. -/
theorem delayTimerIsReadAndWritten : Obligations.DelayTimerIsReadAndWritten := by
  intro x s
  exact ⟨encodedAs_ldVxDT x, encodedAs_ldDTVx x,
    ⟨_, rfl, fun r => State.setV_getV s x r s.delayTimer, rfl, onlyChanges_setV_advance s x s.delayTimer⟩,
    ⟨_, rfl, rfl, rfl, onlyChanges_setDelay_advance s (s.getV x)⟩⟩

end Sys2Proof.Machine

/-! SUPPORT. The ticks (60_exceptions.md R210 to R217): the two signals of one tick, the frame of a write of both timers,
and the signal that each of `k` ticks in a row gives. -/

namespace Sys2Proof.Machine

/-! ### The signals of a tick -/

theorem tickOut_tonePlay_iff (v : Byte) : (tickOut v).tonePlay = true ↔ 2 ≤ v.toNat :=
  decide_eq_true_iff

theorem tickOut_toneStop_iff (v : Byte) : (tickOut v).toneStop = true ↔ v.toNat = 1 :=
  decide_eq_true_iff

/-- Tick `j + 1` of `k` signals by the sound timer that the `j` ticks before it left. -/
theorem State.tickTimes_snd_getElem? {j k : Nat} (s : State) (hj : j < k) :
    (State.tickTimes k s).2[j]? = some (tickOut (timerAfter j s.soundTimer)) := by
  induction k generalizing s j with
  | zero => exact absurd hj (Nat.not_lt_zero j)
  | succ k ih =>
    cases j with
    | zero => rw [timerAfter_zero, State.tickTimes, List.getElem?_cons_zero]
    | succ j =>
      rw [State.tickTimes, List.getElem?_cons_succ, ih s.ticked (Nat.lt_of_succ_lt_succ hj), timerAfter_succ,
        State.ticked_soundTimer]

/-! ### The timers, and what a write of both leaves alone -/

theorem timerAfter_eq_zero {k : Nat} {v : Byte} (h : v.toNat ≤ k) : timerAfter k v = 0 := by
  apply BitVec.eq_of_toNat_eq
  rw [timerAfter_toNat, Nat.sub_eq_zero_of_le h]
  rfl

theorem onlyChanges_setSound (s : State) (b : Byte) : OnlyChanges [.soundTimer] s (s.setSound b) := by
  refine ⟨fun c hc => ?_, rfl, rfl, rfl, rfl⟩
  cases c with
  | soundTimer => exact absurd (List.mem_singleton_self _) hc
  | memory | V | stack => exact fun _ => rfl
  | framebuffer => exact fun _ _ => rfl
  | I | pc | sp | delayTimer | drawFlag => rfl

theorem onlyChanges_setDelay_setSound (s : State) (b b' : Byte) :
    OnlyChanges [.delayTimer, .soundTimer] s ((s.setDelay b).setSound b') :=
  ((onlyChanges_setDelay s b).mono (by decide)).trans ((onlyChanges_setSound _ b').mono (by decide))

/-! ### The obligations -/

/-- Settles O51: a tick is one write of both timers, and its two signals are comparisons of the sound timer before it. -/
theorem tickDecrementsAndSignals : Obligations.TickDecrementsAndSignals := by
  intro s
  have hsound := timerDown_toNat s.soundTimer
  refine ⟨s.ticked, tickOut s.soundTimer, rfl, timerDown_toNat s.delayTimer, hsound, tickOut_toneStop_iff _, ?_,
    onlyChanges_setDelay_setSound s (timerDown s.delayTimer) (timerDown s.soundTimer)⟩
  rw [tickOut_tonePlay_iff, State.ticked_soundTimer, hsound]
  omega

/-- Settles O52, by the closed form of `k` ticks in a row and of the signal of each. -/
theorem ticksCountDownToZero : Obligations.TicksCountDownToZero := by
  intro k s
  rw [State.tickTimes_fst]
  refine ⟨timerAfter_toNat k _, timerAfter_toNat k _,
    onlyChanges_setDelay_setSound s (timerAfter k s.delayTimer) (timerAfter k s.soundTimer),
    fun j hj => ⟨_, State.tickTimes_snd_getElem? s hj, ?_, ?_⟩,
    fun hv hk => timerAfter_eq_zero ?_, fun hv hk => timerAfter_eq_zero ?_⟩
  · rw [tickOut_tonePlay_iff, timerAfter_toNat]
    omega
  · rw [tickOut_toneStop_iff, timerAfter_toNat]
    omega
  · rw [hv, hk]
    decide
  · rw [hv, hk]
    decide

end Sys2Proof.Machine

/-! SUPPORT. The draw flag (60_exceptions.md R223): every instruction runs alike whatever the flag is, and leaves it set if
it draws or clears and as it was if not. -/

namespace Sys2Proof.Machine

/-! ### A write of the draw flag -/

/-- The state with another draw flag; `take_draw_flag` is the write of 0. -/
def State.setDrawFlag (s : State) (b : Bool) : State := { s with drawFlag := b }

theorem State.flagTaken_eq_setDrawFlag (s : State) : s.flagTaken = s.setDrawFlag false := rfl

theorem State.setDrawFlag_self (s : State) : s.setDrawFlag s.drawFlag = s := rfl

theorem onlyChanges_setDrawFlag (s : State) (b : Bool) : OnlyChanges [.drawFlag] s (s.setDrawFlag b) := by
  refine ⟨fun c hc => ?_, rfl, rfl, rfl, rfl⟩
  cases c with
  | drawFlag => exact absurd (List.mem_singleton_self _) hc
  | memory | V | stack => exact fun _ => rfl
  | framebuffer => exact fun _ _ => rfl
  | I | pc | sp | delayTimer | soundTimer => rfl

theorem onlyChanges_flagTaken (s : State) : OnlyChanges [.drawFlag] s s.flagTaken := by
  rw [State.flagTaken_eq_setDrawFlag]
  exact onlyChanges_setDrawFlag s false

/-! ### Instructions and the draw flag -/

theorem afterKeyWait_setDrawFlag (x : RegNum) (s : State) (b : Bool) :
    afterKeyWait x (s.setDrawFlag b) = (afterKeyWait x s).setDrawFlag b := by
  by_cases h0 : s.keys = 0
  · rw [afterKeyWait_of_zero x h0, afterKeyWait_of_zero (s := s.setDrawFlag b) x h0]
  · obtain ⟨k, hk, e⟩ := afterKeyWait_of_ne x h0
    obtain ⟨k', hk', e'⟩ := afterKeyWait_of_ne (s := s.setDrawFlag b) x h0
    obtain rfl : k = k' := Option.some.inj (hk.symm.trans hk')
    rw [e, e']
    rfl

/-- An instruction that completes does so whatever the draw flag is, to a state that differs in the flag alone: set if the
instruction writes it (10_state.md R34), as it was given if not. -/
theorem exec_setDrawFlag_of_next {i : Instr} {s t : State} (b : Bool) (h : exec i s = .next t) :
    exec i (s.setDrawFlag b) = .next (t.setDrawFlag (decide (.drawFlag ∈ writes i) || b)) := by
  cases i with
  | call nnn =>
    obtain ⟨hsp, rfl⟩ := execCall_next h
    exact execCall_of_lt nnn hsp
  | ret =>
    obtain ⟨h0, hle, rfl⟩ := execRet_next h
    exact execRet_of_le h0 hle
  | drw x y n =>
    obtain ⟨hmem, hscreen, rfl⟩ := execDrw_next h
    refine execDrw_of_ok hmem fun ⟨r, c, hset, hoff⟩ => ?_
    have := hscreen r c hset
    omega
  | skp x =>
    obtain ⟨hx, rfl⟩ := execSkp_next h
    exact execSkp_of_le hx
  | sknp x =>
    obtain ⟨hx, rfl⟩ := execSknp_next h
    exact execSknp_of_le hx
  | ldVxK x =>
    rw [← Host.Outcome.next.inj h]
    exact congrArg Host.Outcome.next (afterKeyWait_setDrawFlag x s b)
  | ldB x =>
    obtain ⟨hle, rfl⟩ := execLdB_next h
    exact execLdB_of_le x hle
  | storeRegs x =>
    obtain ⟨hle, rfl⟩ := execStoreRegs_next h
    exact execStoreRegs_of_le x hle
  | loadRegs x =>
    obtain ⟨hle, rfl⟩ := execLoadRegs_next h
    exact execLoadRegs_of_le x hle
  | cls | jp _ | jpV0 _ | seImm _ _ | sneImm _ _ | seReg _ _ | sneReg _ _ | ldImm _ _ | addImm _ _ | rnd _ _ | ldReg _ _
  | orReg _ _ | andReg _ _ | xorReg _ _ | addReg _ _ | subReg _ _ | shr _ _ | subn _ _ | shl _ _ | ldI _ | addI _ | ldF _
  | ldVxDT _ | ldDTVx _ | ldSTVx _ =>
    rw [← Host.Outcome.next.inj h]
    rfl

/-- The case of the law above in which the flag given is the one the state has. -/
theorem exec_next_drawFlag {i : Instr} {s t : State} (h : exec i s = .next t) :
    t.drawFlag = (decide (.drawFlag ∈ writes i) || s.drawFlag) := by
  have h' := exec_setDrawFlag_of_next s.drawFlag h
  rw [State.setDrawFlag_self, h] at h'
  exact congrArg State.drawFlag (Host.Outcome.next.inj h')

theorem exec_next_drawFlag_of_true {i : Instr} {s t : State} (h : exec i s = .next t) (hs : s.drawFlag = true) :
    t.drawFlag = true := by
  rw [exec_next_drawFlag h, hs, Bool.or_true]

/-! ### The other operations and the draw flag -/

theorem perform_load_eq (bytes : List Byte) (s : State) :
    perform (.load bytes) s =
      if 3584 < bytes.length then (s, .programTooLarge)
      else (s.setMemory (s.memory.writeBytes 0x200 bytes), .loadOk) := by
  by_cases h : 3584 < bytes.length <;> simp [perform, State.load_eq, h]

theorem perform_load_drawFlag (bytes : List Byte) (s : State) :
    (perform (.load bytes) s).1.drawFlag = s.drawFlag := by
  rw [perform_load_eq]
  split <;> rfl

theorem perform_step_drawFlag_of_true {s : State} (keys : Word) (rnd : Byte) (hs : s.drawFlag = true) :
    (perform (.step keys rnd) s).1.drawFlag = true := by
  obtain ⟨t, hc, e⟩ | ⟨f, -, e⟩ | ⟨r, -, e⟩ := perform_step_cases s keys rnd
  · obtain ⟨-, i, -, -, -, hi⟩ := cycle_next hc
    rw [e]
    exact exec_next_drawFlag_of_true hi hs
  · rw [e]
    exact hs
  · rw [e]
    exact hs

/-- `reset` sets the flag itself; the operations other than `take_draw_flag` leave a set flag set. -/
theorem perform_drawFlag_of_true {op : Op} {s : State} (hop : op ≠ .takeDrawFlag) (hs : s.drawFlag = true) :
    (perform op s).1.drawFlag = true := by
  cases op with
  | reset => rfl
  | load bytes => rw [perform_load_drawFlag, hs]
  | step keys rnd => exact perform_step_drawFlag_of_true keys rnd hs
  | tick => exact hs
  | takeDrawFlag => exact absurd rfl hop

/-! ### The obligation -/

/-- Settles O54: taking the flag is a write of 0 to it, and an instruction runs alike whatever the flag is. -/
theorem takingTheDrawFlagClearsIt : Obligations.TakingTheDrawFlagClearsIt := by
  exact ⟨fun s => ⟨s.flagTaken, rfl, rfl, rfl, onlyChanges_flagTaken s⟩,
    fun op s hop hs => perform_drawFlag_of_true hop hs,
    fun i s t h => ⟨exec_next_drawFlag_of_true h, _, exec_setDrawFlag_of_next false h, onlyChanges_setDrawFlag t _⟩⟩

end Sys2Proof.Machine

/-! SUPPORT. The load of a program (70_reset_and_hazards.md R243, R244): what the bytes read as after it, and the frame of
one write of the memory. -/

namespace Sys2Proof.Machine

theorem perform_load_of_lt {bytes : List Byte} (s : State) (h : 3584 < bytes.length) :
    perform (.load bytes) s = (s, .programTooLarge) := by
  rw [perform_load_eq, if_pos h]

theorem perform_load_of_le {bytes : List Byte} (s : State) (h : bytes.length ≤ 3584) :
    perform (.load bytes) s = (s.setMemory (s.memory.writeBytes 0x200 bytes), .loadOk) := by
  rw [perform_load_eq, if_neg (Nat.not_lt.mpr h)]

theorem Memory.read_writeBytes_getElem? {m : Memory} {a i : Nat} {bs : List Byte} (hwf : m.wf = true)
    (ha : a + bs.length ≤ 4096) (hi : i < bs.length) : some ((m.writeBytes a bs).read (a + i)) = bs[i]? := by
  have hin : a ≤ a + i ∧ a + i < a + bs.length := by omega
  rw [Memory.read_writeBytes hwf ha, if_pos hin, Nat.add_sub_cancel_left, List.getD_eq_getElem _ _ hi,
    List.getElem?_eq_getElem hi]

theorem Memory.read_writeBytes_of_not_mem {m : Memory} {a q : Nat} {bs : List Byte} (hwf : m.wf = true)
    (ha : a + bs.length ≤ 4096) (hq : ¬ (a ≤ q ∧ q < a + bs.length)) : (m.writeBytes a bs).read q = m.read q := by
  rw [Memory.read_writeBytes hwf ha, if_neg hq]

theorem onlyChanges_setMemory (s : State) (m : Memory) : OnlyChanges [.memory] s (s.setMemory m) := by
  refine ⟨fun c hc => ?_, rfl, rfl, rfl, rfl⟩
  cases c with
  | memory => exact absurd (List.mem_singleton_self _) hc
  | V | stack => exact fun _ => rfl
  | framebuffer => exact fun _ _ => rfl
  | I | pc | sp | delayTimer | soundTimer | drawFlag => rfl

/-- Settles O56: a load that is not refused is one write of the block from 0x200, and 0x200 + 3584 = 4096, so that the
whole block lies in memory. -/
theorem loadCopiesTheProgram : Obligations.LoadCopiesTheProgram := by
  intro bytes s hwf
  refine ⟨perform_load_of_lt s, fun hlen => ⟨_, perform_load_of_le s hlen, ?_⟩⟩
  have hblock : 0x200 + bytes.length ≤ 4096 := by omega
  exact ⟨fun i hi => Memory.read_writeBytes_getElem? hwf hblock hi,
    fun a ha => Memory.read_writeBytes_of_not_mem hwf hblock ha, onlyChanges_setMemory s _⟩

end Sys2Proof.Machine

/-! SUPPORT. Decoding and encoding (30_encoding.md R76 to R80): the decoder reads every instruction back from its word, the
encoder gives every word that decodes back, a row of the opcode table holds exactly the words of its instruction, and the
words of no row. -/

namespace Sys2Proof.Machine

/-! ### The dispatch of the remaining groups -/

theorem decodeWord_of_opField_five {w : Word} (h : opField w = 0x5#4) (hn : nField w = 0#4) :
    decodeWord w = some (.seReg (xField w) (yField w)) := by
  simp [decodeWord, h, hn]

theorem decodeWord_of_opField_nine {w : Word} (h : opField w = 0x9#4) (hn : nField w = 0#4) :
    decodeWord w = some (.sneReg (xField w) (yField w)) := by
  simp [decodeWord, h, hn]

theorem decodeWord_of_opField_eleven {w : Word} (h : opField w = 0xB#4) : decodeWord w = some (.jpV0 (nnnField w)) := by
  simp [decodeWord, h]

theorem decodeWord_of_opField_twelve {w : Word} (h : opField w = 0xC#4) :
    decodeWord w = some (.rnd (xField w) (nnField w)) := by
  simp [decodeWord, h]

theorem decodeWord_of_opField_thirteen {w : Word} (h : opField w = 0xD#4) :
    decodeWord w = some (.drw (xField w) (yField w) (nField w)) := by
  simp [decodeWord, h]

theorem decodeWord_of_opField_fourteen {w : Word} (h : opField w = 0xE#4) : decodeWord w = decodeKey w := by
  simp [decodeWord, h]

/-! ### The decoder on the encoder's words -/

theorem decodeWord_encode_seReg (x y : RegNum) : decodeWord (encode (.seReg x y)) = some (.seReg x y) := by
  obtain ⟨hop, hx, hy, hn⟩ := fields_of_digits 0x5#4 (regBits x) (regBits y) 0#4 (w := encode (.seReg x y)) rfl
  rw [decodeWord_of_opField_five hop hn, hx, hy, regBits_toFin, regBits_toFin]

theorem decodeWord_encode_sneReg (x y : RegNum) : decodeWord (encode (.sneReg x y)) = some (.sneReg x y) := by
  obtain ⟨hop, hx, hy, hn⟩ := fields_of_digits 0x9#4 (regBits x) (regBits y) 0#4 (w := encode (.sneReg x y)) rfl
  rw [decodeWord_of_opField_nine hop hn, hx, hy, regBits_toFin, regBits_toFin]

theorem decodeWord_encode_jpV0 (nnn : BitVec 12) : decodeWord (encode (.jpV0 nnn)) = some (.jpV0 nnn) := by
  obtain ⟨hop, hnnn⟩ := fields_of_addr 0xB#4 nnn (w := encode (.jpV0 nnn)) rfl
  rw [decodeWord_of_opField_eleven hop, hnnn]

theorem decodeWord_encode_rnd (x : RegNum) (nn : Byte) : decodeWord (encode (.rnd x nn)) = some (.rnd x nn) := by
  obtain ⟨hop, hx, hnn⟩ := fields_of_byte 0xC#4 (regBits x) nn (w := encode (.rnd x nn)) rfl
  rw [decodeWord_of_opField_twelve hop, hx, hnn, regBits_toFin]

theorem decodeWord_encode_drw (x y : RegNum) (n : BitVec 4) : decodeWord (encode (.drw x y n)) = some (.drw x y n) := by
  obtain ⟨hop, hx, hy, hn⟩ := fields_of_digits 0xD#4 (regBits x) (regBits y) n (w := encode (.drw x y n)) rfl
  rw [decodeWord_of_opField_thirteen hop, hx, hy, hn, regBits_toFin, regBits_toFin]

/-- An instruction of group E is told by its low byte. -/
theorem decodeWord_encode_key {op : RegNum → Instr} {b : Byte} (x : RegNum)
    (henc : encode (op x) = 0xE#4 ++ regBits x ++ b) (hdec : ∀ w, nnField w = b → decodeKey w = some (op (xField w))) :
    decodeWord (encode (op x)) = some (op x) := by
  obtain ⟨hop, hx, hb⟩ := fields_of_byte 0xE#4 (regBits x) b henc
  rw [decodeWord_of_opField_fourteen hop, hdec _ hb, hx, regBits_toFin]

/-- Every instruction is read back from its word (30_encoding.md R80). -/
theorem decodeWord_encode (i : Instr) : decodeWord (encode i) = some i := by
  cases i with
  | cls | ret => rfl
  | jp nnn => exact (encodedAs_jp nnn).2
  | call nnn => exact (encodedAs_call nnn).2
  | seImm x nn => exact (encodedAs_seImm x nn).2
  | sneImm x nn => exact (encodedAs_sneImm x nn).2
  | seReg x y => exact decodeWord_encode_seReg x y
  | ldImm x nn => exact (encodedAs_ldImm x nn).2
  | addImm x nn => exact (encodedAs_addImm x nn).2
  | ldReg x y => exact (encodedAs_ldReg x y).2
  | orReg x y => exact (encodedAs_orReg x y).2
  | andReg x y => exact (encodedAs_andReg x y).2
  | xorReg x y => exact (encodedAs_xorReg x y).2
  | addReg x y | subReg x y | shr x y | subn x y | shl x y =>
    exact (encodedAs_alu x y rfl rfl fun w h => by simp [decodeAlu, h]).2
  | sneReg x y => exact decodeWord_encode_sneReg x y
  | ldI nnn => exact (encodedAs_ldI nnn).2
  | jpV0 nnn => exact decodeWord_encode_jpV0 nnn
  | rnd x nn => exact decodeWord_encode_rnd x nn
  | drw x y n => exact decodeWord_encode_drw x y n
  | skp x | sknp x => exact decodeWord_encode_key x rfl fun w h => by simp [decodeKey, h]
  | addI x => exact (encodedAs_addI x).2
  | ldVxDT x => exact (encodedAs_ldVxDT x).2
  | ldDTVx x => exact (encodedAs_ldDTVx x).2
  | ldVxK x | ldSTVx x | ldF x | ldB x | storeRegs x | loadRegs x =>
    exact (encodedAs_misc x rfl rfl fun w h => by simp [decodeMisc, h]).2

theorem decode_encodeBytes_append (i : Instr) (rest : List Byte) : decode (encodeBytes i ++ rest) = .ok (i, rest) := by
  have h := decode_cons ((encode i).extractLsb' 8 8) ((encode i).extractLsb' 0 8) rest
  rw [wordOfBytes_bytesOfWord, decodeWord_encode] at h
  exact h

/-- Settles O1, instruction by instruction; the two bytes of a word give the word back. -/
theorem decodeOfEncodeIsTheInstruction : Obligations.DecodeOfEncodeIsTheInstruction := by
  intro i rest
  exact ⟨decodeWord_encode i, decode_encodeBytes_append i rest⟩

/-! ### The encoder on the decoder's instructions -/

theorem addr_eq_word {w : Word} {op : BitVec 4} (hop : opField w = op) : op ++ nnnField w = w := by
  rw [← hop]
  exact (word_eq_addr w).symm

theorem byte_eq_word {w : Word} {op : BitVec 4} {b : Byte} (hop : opField w = op) (hb : nnField w = b) :
    op ++ regBits (xField w) ++ b = w := by
  rw [← hop, ← hb]
  exact (word_eq_byte w).symm

theorem digits_eq_word {w : Word} {op n : BitVec 4} (hop : opField w = op) (hn : nField w = n) :
    op ++ regBits (xField w) ++ regBits (yField w) ++ n = w := by
  rw [← hop, ← hn]
  exact (word_eq_digits w).symm

theorem encode_of_decodeAlu {w : Word} {i : Instr} (hop : opField w = 0x8#4) (h : decodeAlu w = some i) :
    encode i = w := by
  unfold decodeAlu at h
  split at h <;> cases h <;> exact digits_eq_word hop (BitVec.eq_of_toNat_eq ‹_›)

theorem encode_of_decodeKey {w : Word} {i : Instr} (hop : opField w = 0xE#4) (h : decodeKey w = some i) :
    encode i = w := by
  unfold decodeKey at h
  split at h <;> cases h <;> exact byte_eq_word hop (BitVec.eq_of_toNat_eq ‹_›)

theorem encode_of_decodeMisc {w : Word} {i : Instr} (hop : opField w = 0xF#4) (h : decodeMisc w = some i) :
    encode i = w := by
  unfold decodeMisc at h
  split at h <;> cases h <;> exact byte_eq_word hop (BitVec.eq_of_toNat_eq ‹_›)

/-- A word that decodes is the word of what it decodes to: each branch of the dispatch keeps every digit of the word. -/
theorem encode_of_decodeWord {w : Word} {i : Instr} (h : decodeWord w = some i) : encode i = w := by
  unfold decodeWord at h
  split at h
  case h_1 =>
    split at h
    · cases h
      exact (‹w = 0x00E0#16›).symm
    · split at h
      · cases h
        exact (‹w = 0x00EE#16›).symm
      · cases h
  case h_2 hop | h_3 hop | h_11 hop | h_12 hop =>
    cases h
    exact addr_eq_word (BitVec.eq_of_toNat_eq hop)
  case h_4 hop | h_5 hop | h_7 hop | h_8 hop | h_13 hop =>
    cases h
    exact byte_eq_word (BitVec.eq_of_toNat_eq hop) rfl
  case h_6 hop | h_10 hop =>
    split at h
    · cases h
      exact digits_eq_word (BitVec.eq_of_toNat_eq hop) ‹_›
    · cases h
  case h_9 hop => exact encode_of_decodeAlu (BitVec.eq_of_toNat_eq hop) h
  case h_14 hop =>
    cases h
    exact digits_eq_word (BitVec.eq_of_toNat_eq hop) rfl
  case h_15 hop => exact encode_of_decodeKey (BitVec.eq_of_toNat_eq hop) h
  case h_16 hop => exact encode_of_decodeMisc (BitVec.eq_of_toNat_eq hop) h
  case h_17 => cases h

/-- The decoder and the encoder are inverse to each other. -/
theorem decodeWord_eq_some_iff {w : Word} {i : Instr} : decodeWord w = some i ↔ encode i = w :=
  ⟨encode_of_decodeWord, fun h => h ▸ decodeWord_encode i⟩

/-- Settles O2, by the branches of the dispatch. -/
theorem encodeOfDecodeIsTheWord : Obligations.EncodeOfDecodeIsTheWord := by
  intro w i h
  exact encode_of_decodeWord h

/-! ### The rows of the table -/

theorem opField_toNat (w : Word) : (opField w).toNat = w.toNat / 4096 := by
  have := w.isLt
  simp only [opField, BitVec.extractLsb'_toNat, Nat.shiftRight_eq_div_pow]
  omega

theorem nField_toNat (w : Word) : (nField w).toNat = w.toNat % 16 := by
  simp [nField]

theorem nnField_toNat (w : Word) : (nnField w).toNat = w.toNat % 256 := by
  simp [nnField]

/-- A mask that fixes the first digit lets that digit be read off the row's value. -/
theorem opField_of_and {w m v : Word} (hm : opField m = 15#4) (h : w &&& m = v) : opField w = opField v := by
  have hand : opField (w &&& m) = opField w &&& opField m := BitVec.extractLsb'_and
  rw [h, hm] at hand
  exact (hand.trans BitVec.and_allOnes).symm

theorem nField_of_and {w m v : Word} (hm : nField m = 15#4) (h : w &&& m = v) : nField w = nField v := by
  have hand : nField (w &&& m) = nField w &&& nField m := BitVec.extractLsb'_and
  rw [h, hm] at hand
  exact (hand.trans BitVec.and_allOnes).symm

theorem nnField_of_and {w m v : Word} (hm : nnField m = 255#8) (h : w &&& m = v) : nnField w = nnField v := by
  have hand : nnField (w &&& m) = nnField w &&& nnField m := BitVec.extractLsb'_and
  rw [h, hm] at hand
  exact (hand.trans BitVec.and_allOnes).symm

theorem eq_of_and_ones {w v : Word} (h : w &&& 0xFFFF#16 = v) : w = v := by
  rw [← h]
  exact BitVec.and_allOnes.symm

/-! A row's word put together: the digits that the mask fixes are the value's, the others are free. -/

theorem addr_eq_word_of_row {w m v : Word} {op : BitVec 4} (h : w &&& m = v) (hm : opField m = 15#4)
    (hv : opField v = op) : op ++ nnnField w = w :=
  addr_eq_word ((opField_of_and hm h).trans hv)

theorem byte_eq_word_of_row {w m v : Word} {op : BitVec 4} (h : w &&& m = v) (hm : opField m = 15#4)
    (hv : opField v = op) : op ++ regBits (xField w) ++ nnField w = w :=
  byte_eq_word ((opField_of_and hm h).trans hv) rfl

theorem digits_eq_word_of_row {w m v : Word} {op n : BitVec 4} (h : w &&& m = v) (hm : opField m = 15#4 ∧ nField m = 15#4)
    (hv : opField v = op ∧ nField v = n) : op ++ regBits (xField w) ++ regBits (yField w) ++ n = w :=
  digits_eq_word ((opField_of_and hm.1 h).trans hv.1) ((nField_of_and hm.2 h).trans hv.2)

theorem fixed_byte_eq_word_of_row {w m v : Word} {op : BitVec 4} {b : Byte} (h : w &&& m = v)
    (hm : opField m = 15#4 ∧ nnField m = 255#8) (hv : opField v = op ∧ nnField v = b) :
    op ++ regBits (xField w) ++ b = w :=
  byte_eq_word ((opField_of_and hm.1 h).trans hv.1) ((nnField_of_and hm.2 h).trans hv.2)

/-- The words of a row are encodings of the row's instruction, its operands read from the bits the mask leaves free. -/
theorem exists_encode_of_mem_opcodeTable (w : Word) :
    ∀ r ∈ opcodeTable, w &&& r.mask = r.value → ∃ i, encode i = w ∧ i.mnemonic = r.mnemonic := by
  simp only [opcodeTable, opcodeRowsLow, opcodeRowsHigh, List.cons_append, List.nil_append, List.forall_mem_cons]
  exact ⟨fun h => ⟨.cls, (eq_of_and_ones h).symm, rfl⟩,
    fun h => ⟨.ret, (eq_of_and_ones h).symm, rfl⟩,
    fun h => ⟨.jp _, addr_eq_word_of_row h rfl rfl, rfl⟩,
    fun h => ⟨.call _, addr_eq_word_of_row h rfl rfl, rfl⟩,
    fun h => ⟨.seImm _ _, byte_eq_word_of_row h rfl rfl, rfl⟩,
    fun h => ⟨.sneImm _ _, byte_eq_word_of_row h rfl rfl, rfl⟩,
    fun h => ⟨.seReg _ _, digits_eq_word_of_row h ⟨rfl, rfl⟩ ⟨rfl, rfl⟩, rfl⟩,
    fun h => ⟨.ldImm _ _, byte_eq_word_of_row h rfl rfl, rfl⟩,
    fun h => ⟨.addImm _ _, byte_eq_word_of_row h rfl rfl, rfl⟩,
    fun h => ⟨.ldReg _ _, digits_eq_word_of_row h ⟨rfl, rfl⟩ ⟨rfl, rfl⟩, rfl⟩,
    fun h => ⟨.orReg _ _, digits_eq_word_of_row h ⟨rfl, rfl⟩ ⟨rfl, rfl⟩, rfl⟩,
    fun h => ⟨.andReg _ _, digits_eq_word_of_row h ⟨rfl, rfl⟩ ⟨rfl, rfl⟩, rfl⟩,
    fun h => ⟨.xorReg _ _, digits_eq_word_of_row h ⟨rfl, rfl⟩ ⟨rfl, rfl⟩, rfl⟩,
    fun h => ⟨.addReg _ _, digits_eq_word_of_row h ⟨rfl, rfl⟩ ⟨rfl, rfl⟩, rfl⟩,
    fun h => ⟨.subReg _ _, digits_eq_word_of_row h ⟨rfl, rfl⟩ ⟨rfl, rfl⟩, rfl⟩,
    fun h => ⟨.shr _ _, digits_eq_word_of_row h ⟨rfl, rfl⟩ ⟨rfl, rfl⟩, rfl⟩,
    fun h => ⟨.subn _ _, digits_eq_word_of_row h ⟨rfl, rfl⟩ ⟨rfl, rfl⟩, rfl⟩,
    fun h => ⟨.shl _ _, digits_eq_word_of_row h ⟨rfl, rfl⟩ ⟨rfl, rfl⟩, rfl⟩,
    fun h => ⟨.sneReg _ _, digits_eq_word_of_row h ⟨rfl, rfl⟩ ⟨rfl, rfl⟩, rfl⟩,
    fun h => ⟨.ldI _, addr_eq_word_of_row h rfl rfl, rfl⟩,
    fun h => ⟨.jpV0 _, addr_eq_word_of_row h rfl rfl, rfl⟩,
    fun h => ⟨.rnd _ _, byte_eq_word_of_row h rfl rfl, rfl⟩,
    fun h => ⟨.drw _ _ _, digits_eq_word ((opField_of_and rfl h).trans rfl) rfl, rfl⟩,
    fun h => ⟨.skp _, fixed_byte_eq_word_of_row h ⟨rfl, rfl⟩ ⟨rfl, rfl⟩, rfl⟩,
    fun h => ⟨.sknp _, fixed_byte_eq_word_of_row h ⟨rfl, rfl⟩ ⟨rfl, rfl⟩, rfl⟩,
    fun h => ⟨.ldVxDT _, fixed_byte_eq_word_of_row h ⟨rfl, rfl⟩ ⟨rfl, rfl⟩, rfl⟩,
    fun h => ⟨.ldVxK _, fixed_byte_eq_word_of_row h ⟨rfl, rfl⟩ ⟨rfl, rfl⟩, rfl⟩,
    fun h => ⟨.ldDTVx _, fixed_byte_eq_word_of_row h ⟨rfl, rfl⟩ ⟨rfl, rfl⟩, rfl⟩,
    fun h => ⟨.ldSTVx _, fixed_byte_eq_word_of_row h ⟨rfl, rfl⟩ ⟨rfl, rfl⟩, rfl⟩,
    fun h => ⟨.addI _, fixed_byte_eq_word_of_row h ⟨rfl, rfl⟩ ⟨rfl, rfl⟩, rfl⟩,
    fun h => ⟨.ldF _, fixed_byte_eq_word_of_row h ⟨rfl, rfl⟩ ⟨rfl, rfl⟩, rfl⟩,
    fun h => ⟨.ldB _, fixed_byte_eq_word_of_row h ⟨rfl, rfl⟩ ⟨rfl, rfl⟩, rfl⟩,
    fun h => ⟨.storeRegs _, fixed_byte_eq_word_of_row h ⟨rfl, rfl⟩ ⟨rfl, rfl⟩, rfl⟩,
    fun h => ⟨.loadRegs _, fixed_byte_eq_word_of_row h ⟨rfl, rfl⟩ ⟨rfl, rfl⟩, rfl⟩,
    List.forall_mem_nil _⟩

theorem mnemonic_of_rowOf {i : Instr} {r : OpcodeRow} (h : Laws.rowOf i = some r) : r.mnemonic = i.mnemonic :=
  eq_of_beq (List.find?_some (p := fun q : OpcodeRow => q.mnemonic == i.mnemonic) h)

/-- Every instruction's word lies in the row its mnemonic names. -/
theorem encodesInRow (i : Instr) : Laws.EncodesInRow.Statement i := by
  cases i with
  | cls => exact Laws.EncodesInRow.cls
  | ret => exact Laws.EncodesInRow.ret
  | jp nnn => exact Laws.EncodesInRow.jp nnn
  | call nnn => exact Laws.EncodesInRow.call nnn
  | seImm x nn => exact Laws.EncodesInRow.seImm x nn
  | sneImm x nn => exact Laws.EncodesInRow.sneImm x nn
  | seReg x y => exact Laws.EncodesInRow.seReg x y
  | ldImm x nn => exact Laws.EncodesInRow.ldImm x nn
  | addImm x nn => exact Laws.EncodesInRow.addImm x nn
  | ldReg x y => exact Laws.EncodesInRow.ldReg x y
  | orReg x y => exact Laws.EncodesInRow.orReg x y
  | andReg x y => exact Laws.EncodesInRow.andReg x y
  | xorReg x y => exact Laws.EncodesInRow.xorReg x y
  | addReg x y => exact Laws.EncodesInRow.addReg x y
  | subReg x y => exact Laws.EncodesInRow.subReg x y
  | shr x y => exact Laws.EncodesInRow.shr x y
  | subn x y => exact Laws.EncodesInRow.subn x y
  | shl x y => exact Laws.EncodesInRow.shl x y
  | sneReg x y => exact Laws.EncodesInRow.sneReg x y
  | ldI nnn => exact Laws.EncodesInRow.ldI nnn
  | jpV0 nnn => exact Laws.EncodesInRow.jpV0 nnn
  | rnd x nn => exact Laws.EncodesInRow.rnd x nn
  | drw x y n => exact Laws.EncodesInRow.drw x y n
  | skp x => exact Laws.EncodesInRow.skp x
  | sknp x => exact Laws.EncodesInRow.sknp x
  | ldVxDT x => exact Laws.EncodesInRow.ldVxDT x
  | ldVxK x => exact Laws.EncodesInRow.ldVxK x
  | ldDTVx x => exact Laws.EncodesInRow.ldDTVx x
  | ldSTVx x => exact Laws.EncodesInRow.ldSTVx x
  | addI x => exact Laws.EncodesInRow.addI x
  | ldF x => exact Laws.EncodesInRow.ldF x
  | ldB x => exact Laws.EncodesInRow.ldB x
  | storeRegs x => exact Laws.EncodesInRow.storeRegs x
  | loadRegs x => exact Laws.EncodesInRow.loadRegs x

theorem opcodeTable_mnemonic_nodup : (opcodeTable.map OpcodeRow.mnemonic).Nodup := by
  decide +kernel

/-- A mnemonic names one row. -/
theorem eq_of_mnemonic_eq {r r' : OpcodeRow} (hr : r ∈ opcodeTable) (hr' : r' ∈ opcodeTable)
    (h : r.mnemonic = r'.mnemonic) : r = r' :=
  List.inj_on_of_nodup_map opcodeTable_mnemonic_nodup hr hr' h

/-- A word satisfies a row exactly when it decodes to an instruction the row names (30_encoding.md R76). -/
theorem and_mask_eq_value_iff (w : Word) {r : OpcodeRow} (hr : r ∈ opcodeTable) :
    w &&& r.mask = r.value ↔ ∃ i, decodeWord w = some i ∧ i.mnemonic = r.mnemonic := by
  constructor
  · intro h
    obtain ⟨i, hi, hm⟩ := exists_encode_of_mem_opcodeTable w r hr h
    exact ⟨i, decodeWord_eq_some_iff.2 hi, hm⟩
  · rintro ⟨i, hi, hm⟩
    obtain ⟨r', hrow, hacc⟩ := encodesInRow i
    obtain rfl := eq_of_mnemonic_eq (List.mem_of_find?_eq_some hrow) hr ((mnemonic_of_rowOf hrow).trans hm)
    rw [encode_of_decodeWord hi] at hacc
    exact eq_of_beq hacc

/-- Settles O3: both directions by the row's own instructions; the rows of one word name the one instruction it decodes to. -/
theorem decoderAgreesWithOpcodeTable : Obligations.DecoderAgreesWithOpcodeTable := by
  intro w r hr
  refine ⟨and_mask_eq_value_iff w hr, fun r' hr' h h' => eq_of_mnemonic_eq hr hr' ?_⟩
  obtain ⟨i, hi, hm⟩ := (and_mask_eq_value_iff w hr).1 h
  obtain ⟨i', hi', hm'⟩ := (and_mask_eq_value_iff w hr').1 h'
  obtain rfl := Option.some.inj (hi.symm.trans hi')
  exact hm.symm.trans hm'

/-! ### The words of no row -/

theorem decodeAlu_eq_none_iff (w : Word) :
    decodeAlu w = none ↔ (nField w).toNat ∈ [8, 9, 0xA, 0xB, 0xC, 0xD, 0xF] := by
  have hn := (nField w).isLt
  unfold decodeAlu
  split <;> simp_all
  omega

theorem decodeKey_eq_none_iff (w : Word) : decodeKey w = none ↔ (nnField w).toNat ∉ [0x9E, 0xA1] := by
  unfold decodeKey
  split <;> simp_all

theorem decodeMisc_eq_none_iff (w : Word) :
    decodeMisc w = none ↔ (nnField w).toNat ∉ [0x07, 0x0A, 0x15, 0x18, 0x1E, 0x29, 0x33, 0x55, 0x65] := by
  unfold decodeMisc
  split <;> simp_all

/-- Groups 5 and 9 select on a last digit of 0. -/
theorem ite_nField_eq_none_iff (w : Word) (i : Instr) :
    (if nField w = 0#4 then some i else none) = none ↔ (nField w).toNat ≠ 0 := by
  simp [← BitVec.toNat_inj]

theorem decodeWord_eq_none_iff (w : Word) :
    decodeWord w = none ↔
      ((opField w).toNat = 0 ∧ w ≠ 0x00E0#16 ∧ w ≠ 0x00EE#16) ∨
      (((opField w).toNat = 5 ∨ (opField w).toNat = 9) ∧ (nField w).toNat ≠ 0) ∨
      ((opField w).toNat = 8 ∧ decodeAlu w = none) ∨
      ((opField w).toNat = 0xE ∧ decodeKey w = none) ∨
      ((opField w).toNat = 0xF ∧ decodeMisc w = none) := by
  have hop := (opField w).isLt
  unfold decodeWord
  split
  case h_1 e => simp [e, ite_eq_iff]
  case h_6 e | h_10 e =>
    rw [ite_nField_eq_none_iff]
    simp [e]
  case h_17 =>
    simp only [imp_false] at *
    omega
  all_goals simp [*]

/-- Settles O4: the dispatch fails in groups 0, 5, 8, 9, E and F alone, and the fields are digits of the word as a number. -/
theorem illegalWordsAreExactlyTheListed : Obligations.IllegalWordsAreExactlyTheListed := by
  intro w
  rw [decodeWord_eq_none_iff, decodeAlu_eq_none_iff, decodeKey_eq_none_iff, decodeMisc_eq_none_iff, opField_toNat,
    nField_toNat, nnField_toNat, ne_eq, ne_eq, ← BitVec.toNat_inj, ← BitVec.toNat_inj]
  rfl

/-- Settles O5: the decoder computes. -/
theorem wordsFromThePatternsDecode : Obligations.WordsFromThePatternsDecode :=
  ⟨rfl, rfl, rfl, rfl, rfl, rfl, rfl⟩

end Sys2Proof.Machine

/-! SUPPORT. What an instruction that completes leaves alone (10_state.md R20, R24): the frames of the writes that stood
without one, and by them the table of the components and of the registers that each instruction writes. -/

namespace Sys2Proof.Machine

/-! ### Frames of the remaining writes -/

theorem onlyChanges_refl (cs : List Component) (s : State) : OnlyChanges cs s s := by
  refine ⟨fun c _ => ?_, rfl, rfl, rfl, rfl⟩
  cases c with
  | memory | V | stack => exact fun _ => rfl
  | framebuffer => exact fun _ _ => rfl
  | I | pc | sp | delayTimer | soundTimer | drawFlag => rfl

theorem onlyChanges_setAllV (s : State) (v : Vector Byte 16) : OnlyChanges [.V] s (s.setAllV v) := by
  refine ⟨fun c hc => ?_, rfl, rfl, rfl, rfl⟩
  cases c with
  | V => exact absurd (List.mem_singleton_self _) hc
  | memory | stack => exact fun _ => rfl
  | framebuffer => exact fun _ _ => rfl
  | I | pc | sp | delayTimer | soundTimer | drawFlag => rfl

theorem onlyChanges_drop (s : State) : OnlyChanges [.sp] s s.drop := by
  refine ⟨fun c hc => ?_, rfl, rfl, rfl, rfl⟩
  cases c with
  | sp => exact absurd (List.mem_singleton_self _) hc
  | memory | V | stack => exact fun _ => rfl
  | framebuffer => exact fun _ _ => rfl
  | I | pc | delayTimer | soundTimer | drawFlag => rfl

theorem OnlyChanges.trans_advance {cs : List Component} {s t : State} (h : OnlyChanges cs s t) :
    OnlyChanges (.pc :: cs) s t.advance :=
  (h.mono (List.subset_cons_self _ _)).trans ((onlyChanges_advance t).mono (by simp))

theorem onlyChanges_drop_setPc (s : State) (a : Word) : OnlyChanges [.pc, .sp] s (s.drop.setPc a) :=
  ((onlyChanges_drop s).mono (by decide)).trans ((onlyChanges_setPc _ _).mono (by decide))

theorem onlyChanges_push_setPc (s : State) (a b : Word) : OnlyChanges [.pc, .sp, .stack] s ((s.push a).setPc b) :=
  ((onlyChanges_push s a).mono (by decide)).trans ((onlyChanges_setPc _ _).mono (by decide))

theorem onlyChanges_setScreen_setV (s : State) (fb : Framebuffer) (x : RegNum) (b : Byte) :
    OnlyChanges [.V, .framebuffer, .drawFlag] s ((s.setScreen fb).setV x b) :=
  ((onlyChanges_setScreen s fb).mono (by decide)).trans ((onlyChanges_setV _ x b).mono (by decide))

theorem onlyChanges_setMemory_setI (s : State) (m : Memory) (a : Word) :
    OnlyChanges [.memory, .I] s ((s.setMemory m).setI a) :=
  ((onlyChanges_setMemory s m).mono (by decide)).trans ((onlyChanges_setI _ a).mono (by decide))

theorem onlyChanges_setAllV_setI (s : State) (v : Vector Byte 16) (a : Word) :
    OnlyChanges [.V, .I] s ((s.setAllV v).setI a) :=
  ((onlyChanges_setAllV s v).mono (by decide)).trans ((onlyChanges_setI _ a).mono (by decide))

theorem onlyChanges_setResult (s : State) (x : RegNum) (result flag : Byte) :
    OnlyChanges [.V] s (s.setResult x result flag) :=
  onlyChanges_setAllV s _

theorem onlyChanges_afterKeyWait (x : RegNum) (s : State) : OnlyChanges [.pc, .V] s (afterKeyWait x s) := by
  by_cases h0 : s.keys = 0
  · rw [afterKeyWait_of_zero x h0]
    exact onlyChanges_refl _ s
  · obtain ⟨k, -, e⟩ := afterKeyWait_of_ne x h0
    rw [e]
    exact (onlyChanges_setV s x _).trans_advance

/-! ### The components -/

/-- Every instruction that completes writes at most what the table of 10_state.md R20 lists for it. -/
theorem exec_next_onlyChanges {i : Instr} {s t : State} (h : exec i s = .next t) : OnlyChanges (writes i) s t := by
  cases i with
  | cls =>
    rw [← Host.Outcome.next.inj h]
    exact (onlyChanges_setScreen s _).trans_advance
  | ret =>
    obtain ⟨-, -, rfl⟩ := execRet_next h
    exact onlyChanges_drop_setPc s _
  | call nnn =>
    obtain ⟨-, rfl⟩ := execCall_next h
    exact onlyChanges_push_setPc s _ _
  | jp _ | jpV0 _ | seImm _ _ | sneImm _ _ | seReg _ _ | sneReg _ _ =>
    rw [← Host.Outcome.next.inj h]
    exact onlyChanges_setPc s _
  | skp x =>
    obtain ⟨-, rfl⟩ := execSkp_next h
    exact onlyChanges_skipIf s _
  | sknp x =>
    obtain ⟨-, rfl⟩ := execSknp_next h
    exact onlyChanges_skipIf s _
  | ldImm _ _ | addImm _ _ | rnd _ _ | ldVxDT _ | ldReg _ _ | orReg _ _ | andReg _ _ | xorReg _ _ =>
    rw [← Host.Outcome.next.inj h]
    exact (onlyChanges_setV s _ _).trans_advance
  | addReg _ _ | subReg _ _ | shr _ _ | subn _ _ | shl _ _ =>
    rw [← Host.Outcome.next.inj h]
    exact (onlyChanges_setResult s _ _ _).trans_advance
  | ldVxK x =>
    rw [← Host.Outcome.next.inj h]
    exact onlyChanges_afterKeyWait x s
  | ldI _ | addI _ | ldF _ =>
    rw [← Host.Outcome.next.inj h]
    exact (onlyChanges_setI s _).trans_advance
  | drw x y n =>
    obtain ⟨-, -, rfl⟩ := execDrw_next h
    exact (onlyChanges_setScreen_setV s _ _ _).trans_advance
  | ldDTVx _ =>
    rw [← Host.Outcome.next.inj h]
    exact (onlyChanges_setDelay s _).trans_advance
  | ldSTVx _ =>
    rw [← Host.Outcome.next.inj h]
    exact (onlyChanges_setSound s _).trans_advance
  | ldB x =>
    obtain ⟨-, rfl⟩ := execLdB_next h
    exact (onlyChanges_setMemory s _).trans_advance
  | storeRegs x =>
    obtain ⟨-, rfl⟩ := execStoreRegs_next h
    exact (onlyChanges_setMemory_setI s _ _).trans_advance
  | loadRegs x =>
    obtain ⟨-, rfl⟩ := execLoadRegs_next h
    exact (onlyChanges_setAllV_setI s _ _).trans_advance

/-- Settles O13, by the frame of each instruction's writes. -/
theorem stepsWriteOnlyWhatTheTableSays : Obligations.StepsWriteOnlyWhatTheTableSays := by
  intro i s t h
  exact exec_next_onlyChanges h

/-! ### The registers -/

theorem flagByte_eq_zero_or_one (c : Bool) : flagByte c = 0 ∨ flagByte c = 1 := by
  cases c with
  | false => exact .inl rfl
  | true => exact .inr rfl

theorem State.setResult_getV_flagReg (s : State) (x : RegNum) (result flag : Byte) :
    (s.setResult x result flag).getV 15 = flag :=
  State.setV_getV_same _ _ _

theorem State.setResult_getV_of_ne {s : State} {x q : RegNum} (result flag : Byte) (hx : q ≠ x) (hf : q ≠ 15) :
    (s.setResult x result flag).getV q = s.getV q := by
  rw [State.setResult_getV, if_neg (show q ≠ flagReg from hf), if_neg hx]

theorem afterKeyWait_getV_of_ne {x q : RegNum} (s : State) (h : q ≠ x) : (afterKeyWait x s).getV q = s.getV q := by
  by_cases h0 : s.keys = 0
  · rw [afterKeyWait_of_zero x h0]
  · obtain ⟨k, -, e⟩ := afterKeyWait_of_ne x h0
    rw [e, State.advance_getV, State.setV_getV_ne _ _ h]

/-- A register that is no destination keeps its content (10_state.md R24). -/
theorem exec_next_getV_of_not_writesReg {i : Instr} {s t : State} {r : RegNum} (h : exec i s = .next t)
    (hr : ¬ writesReg r i) : t.getV r = s.getV r := by
  cases i with
  | cls | ret | jp _ | call _ | seImm _ _ | sneImm _ _ | seReg _ _ | sneReg _ _ | ldI _ | jpV0 _ | skp _ | sknp _
  | ldDTVx _ | ldSTVx _ | addI _ | ldF _ | ldB _ | storeRegs _ =>
    exact (exec_next_onlyChanges h).1 .V (by simp only [writes]; decide) r
  | ldImm _ _ | addImm _ _ | rnd _ _ | ldVxDT _ | ldReg _ _ | orReg _ _ | andReg _ _ | xorReg _ _ =>
    rw [← Host.Outcome.next.inj h]
    exact State.setV_getV_ne s _ hr
  | addReg _ _ | subReg _ _ | shr _ _ | subn _ _ | shl _ _ =>
    rw [← Host.Outcome.next.inj h]
    exact State.setResult_getV_of_ne _ _ (fun e => hr (.inl e)) (fun e => hr (.inr e))
  | ldVxK x =>
    rw [← Host.Outcome.next.inj h]
    exact afterKeyWait_getV_of_ne s hr
  | drw x y n =>
    obtain ⟨-, -, rfl⟩ := execDrw_next h
    exact State.setV_getV_ne _ _ hr
  | loadRegs x =>
    obtain ⟨-, rfl⟩ := execLoadRegs_next h
    rw [State.advance_getV, State.setI_getV, State.setAllV_getV, loadedRegs_getElem]
    exact if_neg hr

/-- The six flag writers end with a flag in VF, after the result (10_state.md R25; D10). -/
theorem exec_next_flag {i : Instr} {s t : State} (h : exec i s = .next t) (hi : WritesFlag i) :
    ∃ c, t.getV 15 = flagByte c := by
  cases i with
  | addReg _ _ | subReg _ _ | shr _ _ | subn _ _ | shl _ _ =>
    rw [← Host.Outcome.next.inj h]
    exact ⟨_, State.setResult_getV_flagReg s _ _ _⟩
  | drw x y n =>
    obtain ⟨-, -, rfl⟩ := execDrw_next h
    exact ⟨_, State.setV_getV_same _ flagReg _⟩
  | _ => exact hi.elim

/-- Settles O14: the flag comes last, and no other register than a destination is written. -/
theorem registersChangeOnlyAsDestinations : Obligations.RegistersChangeOnlyAsDestinations := by
  intro i s t h
  refine ⟨fun r hr => exec_next_getV_of_not_writesReg h hr, fun hi => ?_⟩
  obtain ⟨c, hc⟩ := exec_next_flag h hi
  rw [hc]
  exact flagByte_eq_zero_or_one c

end Sys2Proof.Machine

/-! SUPPORT. The inputs and the faults of an instruction (40_fetch_decode.md R96, R97; 60_exceptions.md R201, R204): an
instruction runs alike whatever inputs it does not read, and `FaultsWith` says exactly when and how an instruction faults. -/

namespace Sys2Proof.Machine

/-! ### The inputs of the step -/

theorem mapNext_ite (f : State → State) (c : Prop) [Decidable c] (a b : Result) :
    mapNext f (if c then a else b) = if c then mapNext f a else mapNext f b :=
  apply_ite (mapNext f) c a b

theorem afterKeyWait_present (x : RegNum) (s : State) (k : Word) (b b' : Byte) :
    afterKeyWait x (s.present k b') = (afterKeyWait x (s.present k b)).present k b' := by
  by_cases h0 : k = 0
  · rw [afterKeyWait_of_zero (s := s.present k b') x h0, afterKeyWait_of_zero (s := s.present k b) x h0]
    rfl
  · obtain ⟨j, hj, e⟩ := afterKeyWait_of_ne (s := s.present k b) x h0
    obtain ⟨j', hj', e'⟩ := afterKeyWait_of_ne (s := s.present k b') x h0
    obtain rfl : j = j' := Option.some.inj (hj.symm.trans hj')
    rw [e, e']
    rfl

/-- The instructions that read the random byte (40_fetch_decode.md R97). -/
def ReadsRnd (i : Instr) : Prop := ∃ x nn, i = .rnd x nn

/-- The instructions that read the keys (40_fetch_decode.md R97). -/
def ReadsKeys (i : Instr) : Prop := ∃ x, i = .skp x ∨ i = .sknp x ∨ i = .ldVxK x

/-- An instruction runs alike on inputs that differ only where it does not read them. -/
theorem exec_present {i : Instr} (s : State) {k k' : Word} {b b' : Byte} (hb : ReadsRnd i → b' = b)
    (hk : ReadsKeys i → k' = k) :
    exec i (s.present k' b') = mapNext (fun t => t.present k' b') (exec i (s.present k b)) := by
  cases i with
  | rnd x nn =>
    obtain rfl := hb ⟨x, nn, rfl⟩
    rfl
  | skp x | sknp x =>
    obtain rfl := hk ⟨x, by simp⟩
    simp only [exec, execSkp, execSknp, withKey, mapNext_ite]
    rfl
  | ldVxK x =>
    obtain rfl := hk ⟨x, by simp⟩
    exact congrArg Host.Outcome.next (afterKeyWait_present x s k' b b')
  | call _ | ret =>
    simp only [exec, execCall, execRet, mapNext_ite]
    rfl
  | drw _ _ _ | ldB _ | storeRegs _ | loadRegs _ =>
    simp only [exec, execDrw, execLdB, execStoreRegs, execLoadRegs, withData, mapNext_ite]
    rfl
  | cls | jp _ | jpV0 _ | seImm _ _ | sneImm _ _ | seReg _ _ | sneReg _ _ | ldImm _ _ | addImm _ _ | ldReg _ _
  | orReg _ _ | andReg _ _ | xorReg _ _ | addReg _ _ | subReg _ _ | shr _ _ | subn _ _ | shl _ _ | ldI _ | addI _ | ldF _
  | ldVxDT _ | ldDTVx _ | ldSTVx _ => rfl

/-- Settles O10: two runs that differ in one input, which the instruction does not read. -/
theorem inputsAreReadOnlyWhereNamed : Obligations.InputsAreReadOnlyWhereNamed := by
  intro i s k k' b b'
  exact ⟨fun h => exec_present s (fun ⟨x, nn, e⟩ => absurd e (h x nn)) (fun _ => rfl),
    fun h => exec_present s (fun _ => rfl) (fun ⟨x, e⟩ => absurd e (by simpa [not_or] using h x))⟩

/-! ### The faults -/

/-- When an instruction faults and with what (60_exceptions.md R201, R208), the model's own fault included (log 6). -/
inductive FaultsWith : Instr → State → Fault → Prop where
  | callOverflow {s : State} (nnn : BitVec 12) : s.sp.toNat = 16 → FaultsWith (.call nnn) s (.stackOverflow s.pc)
  | callBeyond {s : State} (nnn : BitVec 12) :
      16 < s.sp.toNat → FaultsWith (.call nnn) s (.stackPointerOutOfRange s.sp)
  | retUnderflow {s : State} : s.sp.toNat = 0 → FaultsWith .ret s (.stackUnderflow s.pc)
  | retBeyond {s : State} : 16 < s.sp.toNat → FaultsWith .ret s (.stackPointerOutOfRange s.sp)
  | data {i : Instr} {s : State} :
      0 < dataLength i → 4096 < s.I.toNat + dataLength i → FaultsWith i s (.memoryOutOfRange .data s.I (dataLength i))
  | screen {s : State} {x y : RegNum} {n : BitVec 4} :
      (n.toNat = 0 ∨ s.I.toNat + n.toNat ≤ 4096) → (∃ r c, SpriteSets x y n s r c ∧ (31 < r ∨ 63 < c)) →
      FaultsWith (.drw x y n) s (.framebufferOutOfRange (s.getV x) (s.getV y))
  | skpKey {s : State} {x : RegNum} : 15 < (s.getV x).toNat → FaultsWith (.skp x) s (.keyIndexOutOfRange (s.getV x))
  | sknpKey {s : State} {x : RegNum} : 15 < (s.getV x).toNat → FaultsWith (.sknp x) s (.keyIndexOutOfRange (s.getV x))

theorem exec_of_faultsWith {i : Instr} {s : State} {f : Fault} (h : FaultsWith i s f) : exec i s = .fault f := by
  cases h with
  | callOverflow nnn hsp => exact execCall_of_eq nnn hsp
  | callBeyond nnn hsp => exact execCall_of_gt nnn hsp
  | retUnderflow hsp => exact execRet_of_zero hsp
  | retBeyond hsp => exact execRet_of_gt hsp
  | screen hmem hoff => exact execDrw_of_screen hmem hoff
  | skpKey hx => exact execSkp_of_gt hx
  | sknpKey hx => exact execSknp_of_gt hx
  | data hlen hI =>
    cases i with
    | drw x y n => exact execDrw_of_memory x y (Nat.ne_of_gt hlen) hI
    | ldB x => exact execLdB_of_gt x hI
    | storeRegs x => exact execStoreRegs_of_gt x hI
    | loadRegs x => exact execLoadRegs_of_gt x hI
    | _ => exact absurd hlen (Nat.lt_irrefl 0)

/-- Every instruction completes or faults as `FaultsWith` says; none is refused. -/
theorem exec_cases (i : Instr) (s : State) : (∃ t, exec i s = .next t) ∨ ∃ f, FaultsWith i s f := by
  cases i with
  | call nnn =>
    rcases Nat.lt_trichotomy s.sp.toNat 16 with hlt | heq | hgt
    · exact .inl ⟨_, execCall_of_lt nnn hlt⟩
    · exact .inr ⟨_, .callOverflow nnn heq⟩
    · exact .inr ⟨_, .callBeyond nnn hgt⟩
  | ret =>
    by_cases h0 : s.sp.toNat = 0
    · exact .inr ⟨_, .retUnderflow h0⟩
    · rcases Nat.lt_or_ge 16 s.sp.toNat with hgt | hle
      · exact .inr ⟨_, .retBeyond hgt⟩
      · exact .inl ⟨_, execRet_of_le h0 hle⟩
  | drw x y n =>
    by_cases hmem : n.toNat = 0 ∨ s.I.toNat + n.toNat ≤ 4096
    · by_cases hoff : ∃ r c, SpriteSets x y n s r c ∧ (31 < r ∨ 63 < c)
      · exact .inr ⟨_, .screen hmem hoff⟩
      · exact .inl ⟨_, execDrw_of_ok hmem hoff⟩
    · rw [not_or] at hmem
      exact .inr ⟨_, .data (Nat.pos_of_ne_zero hmem.1) (Nat.lt_of_not_le hmem.2)⟩
  | ldB x =>
    rcases Nat.lt_or_ge 4096 (s.I.toNat + 3) with hgt | hle
    · exact .inr ⟨_, .data (Nat.succ_pos 2) hgt⟩
    · exact .inl ⟨_, execLdB_of_le x hle⟩
  | storeRegs x =>
    rcases Nat.lt_or_ge 4096 (s.I.toNat + (x.val + 1)) with hgt | hle
    · exact .inr ⟨_, .data (Nat.succ_pos x.val) hgt⟩
    · exact .inl ⟨_, execStoreRegs_of_le x hle⟩
  | loadRegs x =>
    rcases Nat.lt_or_ge 4096 (s.I.toNat + (x.val + 1)) with hgt | hle
    · exact .inr ⟨_, .data (Nat.succ_pos x.val) hgt⟩
    · exact .inl ⟨_, execLoadRegs_of_le x hle⟩
  | skp x =>
    rcases Nat.lt_or_ge 15 (s.getV x).toNat with hgt | hle
    · exact .inr ⟨_, .skpKey hgt⟩
    · exact .inl ⟨_, execSkp_of_le hle⟩
  | sknp x =>
    rcases Nat.lt_or_ge 15 (s.getV x).toNat with hgt | hle
    · exact .inr ⟨_, .sknpKey hgt⟩
    · exact .inl ⟨_, execSknp_of_le hle⟩
  | cls | jp _ | jpV0 _ | seImm _ _ | sneImm _ _ | seReg _ _ | sneReg _ _ | ldImm _ _ | addImm _ _ | rnd _ _ | ldReg _ _
  | orReg _ _ | andReg _ _ | xorReg _ _ | addReg _ _ | subReg _ _ | shr _ _ | subn _ _ | shl _ _ | ldI _ | addI _ | ldF _
  | ldVxDT _ | ldVxK _ | ldDTVx _ | ldSTVx _ => exact .inl ⟨_, rfl⟩

theorem exec_eq_fault_iff {i : Instr} {s : State} {f : Fault} : exec i s = .fault f ↔ FaultsWith i s f := by
  refine ⟨fun h => ?_, exec_of_faultsWith⟩
  obtain ⟨t, ht⟩ | ⟨f', hf⟩ := exec_cases i s
  · cases ht.symm.trans h
  · cases (exec_of_faultsWith hf).symm.trans h
    exact hf

theorem exec_ne_refused (i : Instr) (s : State) (r : Refusal) : exec i s ≠ .refused r := by
  intro h
  obtain ⟨t, ht⟩ | ⟨f, hf⟩ := exec_cases i s
  · cases ht.symm.trans h
  · cases (exec_of_faultsWith hf).symm.trans h

/-- Settles O12, by the cases of `FaultsWith`; the two about sp above 16 contradict the premise. -/
theorem instructionsFaultOnlyAsTheTableSays : Obligations.InstructionsFaultOnlyAsTheTableSays := by
  refine ⟨exec_ne_refused, fun i s f hsp h => ?_⟩
  cases exec_eq_fault_iff.1 h with
  | callOverflow nnn heq => exact .inl ⟨⟨nnn, rfl⟩, heq, rfl⟩
  | callBeyond nnn hgt => omega
  | retUnderflow h0 => exact .inr (.inl ⟨rfl, h0, rfl⟩)
  | retBeyond hgt => omega
  | data hlen hI => exact .inr (.inr (.inl ⟨hlen, by omega, rfl⟩))
  | screen hmem hoff =>
    obtain ⟨r, c, hset, hrc⟩ := hoff
    exact .inr (.inr (.inr (.inl ⟨_, _, _, r, c, rfl, hset, hrc, rfl⟩)))
  | skpKey hx => exact .inr (.inr (.inr (.inr ⟨_, .inl rfl, hx, rfl⟩)))
  | sknpKey hx => exact .inr (.inr (.inr (.inr ⟨_, .inr rfl, hx, rfl⟩)))

/-- No fault depends on the timers, the draw flag or the inputs. -/
theorem FaultsWith.applyEntry {i : Instr} {s : State} {f : Fault} (h : FaultsWith i s f) (e : EnvEntry) :
    FaultsWith i (s.applyEntry e) f := by
  cases h with
  | callOverflow nnn hsp => exact .callOverflow (s := s.applyEntry e) nnn hsp
  | callBeyond nnn hsp => exact .callBeyond (s := s.applyEntry e) nnn hsp
  | retUnderflow hsp => exact .retUnderflow (s := s.applyEntry e) hsp
  | retBeyond hsp => exact .retBeyond (s := s.applyEntry e) hsp
  | data hlen hI => exact .data (s := s.applyEntry e) hlen hI
  | screen hmem hoff => exact .screen (s := s.applyEntry e) hmem hoff
  | skpKey hx => exact .skpKey (s := s.applyEntry e) hx
  | sknpKey hx => exact .sknpKey (s := s.applyEntry e) hx

theorem fetch_applyEntry (s : State) (e : EnvEntry) : fetch (s.applyEntry e) = fetch s :=
  fetch_congr rfl rfl

/-- Settles O15: an entry changes neither the fetch nor the conditions of a fault. -/
theorem faultedStepFaultsAgain : Obligations.FaultedStepFaultsAgain := by
  intro s f h e
  cases hf : fetch s with
  | error f' =>
    rw [cycle_of_error hf] at h
    rw [cycle_of_error ((fetch_applyEntry s e).trans hf), h]
  | ok w =>
    have hf' := (fetch_applyEntry s e).trans hf
    cases hd : decodeWord w with
    | none =>
      rw [cycle_of_none hf hd] at h
      rw [cycle_of_none hf' hd, State.applyEntry_pc, h]
    | some i =>
      rw [cycle_of_some hf hd] at h
      rw [cycle_of_some hf' hd]
      exact exec_of_faultsWith ((exec_eq_fault_iff.1 h).applyEntry e)

end Sys2Proof.Machine

/-! SUPPORT. The invariant of reachable states (10_state.md R37): each of its four parts is kept by every instruction, so it
holds after every operation and in every reachable state, where only the faults of 60_exceptions.md R201 occur. -/

namespace Sys2Proof.Machine

/-! ### Memory -/

theorem afterKeyWait_memory (x : RegNum) (s : State) : (afterKeyWait x s).memory = s.memory := by
  by_cases h0 : s.keys = 0
  · rw [afterKeyWait_of_zero x h0]
  · obtain ⟨k, -, e⟩ := afterKeyWait_of_ne x h0
    rw [e, State.advance_memory, State.setV_memory]

/-- Every instruction that completes keeps the canonical form of memory: the two that store do so after the bounds check. -/
theorem exec_next_memory_wf {i : Instr} {s t : State} (hwf : s.memory.wf = true) (h : exec i s = .next t) :
    t.memory.wf = true := by
  cases i with
  | ldB x =>
    obtain ⟨hle, rfl⟩ := execLdB_next h
    exact Memory.writeBytes_wf hwf hle
  | storeRegs x =>
    obtain ⟨hle, rfl⟩ := execStoreRegs_next h
    exact Memory.writeBytes_wf hwf (by rwa [regsUpTo_length])
  | call nnn =>
    obtain ⟨-, rfl⟩ := execCall_next h
    exact hwf
  | ret =>
    obtain ⟨-, -, rfl⟩ := execRet_next h
    exact hwf
  | drw x y n =>
    obtain ⟨-, -, rfl⟩ := execDrw_next h
    exact hwf
  | skp x =>
    obtain ⟨-, rfl⟩ := execSkp_next h
    exact hwf
  | sknp x =>
    obtain ⟨-, rfl⟩ := execSknp_next h
    exact hwf
  | loadRegs x =>
    obtain ⟨-, rfl⟩ := execLoadRegs_next h
    rwa [State.advance_memory, State.setI_memory, State.setAllV_memory]
  | ldVxK x =>
    rwa [← Host.Outcome.next.inj h, afterKeyWait_memory]
  | cls | jp _ | jpV0 _ | seImm _ _ | sneImm _ _ | seReg _ _ | sneReg _ _ | ldImm _ _ | addImm _ _ | rnd _ _ | ldReg _ _
  | orReg _ _ | andReg _ _ | xorReg _ _ | addReg _ _ | subReg _ _ | shr _ _ | subn _ _ | shl _ _ | ldI _ | addI _ | ldF _
  | ldVxDT _ | ldDTVx _ | ldSTVx _ =>
    rw [← Host.Outcome.next.inj h]
    exact hwf

/-! ### The stack -/

/-- Part (a) and (c) of the invariant (10_state.md R37). -/
def StackInv (s : State) : Prop :=
  s.sp.toNat ≤ 16 ∧ ∀ k : Fin 16, k.val < s.sp.toNat → s.stack[k].toNat ≤ 0x1000

theorem StackInv.congr {s t : State} (h : StackInv s) (hsp : Agree .sp s t) (hstack : Agree .stack s t) : StackInv t := by
  have hsp' : t.sp = s.sp := hsp
  refine ⟨hsp' ▸ h.1, fun k hk => ?_⟩
  rw [hstack k]
  exact h.2 k (hsp' ▸ hk)

/-- A call pushes pc + 2, at most 0x1000 from a pc that admits a fetch. -/
theorem StackInv.push {s : State} {a : Word} (h : StackInv s) (hsp : s.sp.toNat < 16) (ha : a.toNat ≤ 0x1000) :
    StackInv (s.push a) := by
  have hsp' : (s.push a).sp.toNat = s.sp.toNat + 1 := sp_succ_toNat hsp
  refine ⟨by omega, fun k hk => ?_⟩
  rw [push_stack]
  split
  · exact ha
  · exact h.2 k (by omega)

theorem StackInv.drop {s : State} (h : StackInv s) (h0 : s.sp.toNat ≠ 0) : StackInv s.drop := by
  have hsp : s.drop.sp.toNat = s.sp.toNat - 1 := sp_pred_toNat h0
  obtain ⟨hle, hstack⟩ := h
  exact ⟨by omega, fun k hk => hstack k (by omega)⟩

theorem stack_not_mem_writes {i : Instr} (hcall : ¬ ∃ nnn, i = .call nnn) (hret : i ≠ .ret) :
    .sp ∉ writes i ∧ .stack ∉ writes i := by
  cases i with
  | call nnn => exact absurd ⟨nnn, rfl⟩ hcall
  | ret => exact absurd rfl hret
  | _ =>
    simp only [writes]
    decide

theorem exec_next_stackInv {i : Instr} {s t : State} (hs : StackInv s) (hpc : s.pc.toNat ≤ 0xFFE)
    (h : exec i s = .next t) : StackInv t := by
  by_cases hcall : ∃ nnn, i = .call nnn
  · obtain ⟨nnn, rfl⟩ := hcall
    obtain ⟨hsp, rfl⟩ := execCall_next h
    have hret : (s.pc + 2).toNat ≤ 0x1000 := by bv_omega
    exact hs.push hsp hret
  by_cases hret : i = .ret
  · subst hret
    obtain ⟨h0, -, rfl⟩ := execRet_next h
    exact hs.drop h0
  have hframe := (exec_next_onlyChanges h).1
  obtain ⟨hsp, hst⟩ := stack_not_mem_writes hcall hret
  exact hs.congr (hframe .sp hsp) (hframe .stack hst)

/-! ### pc -/

theorem top_toNat_le {s : State} (hs : StackInv s) (h0 : s.sp.toNat ≠ 0) : s.top.toNat ≤ 0x1000 := by
  obtain ⟨hle, hstack⟩ := hs
  have hk : s.sp.toNat - 1 < 16 := by omega
  rw [top_eq ⟨s.sp.toNat - 1, hk⟩ (Nat.succ_pred_eq_of_ne_zero h0).symm]
  exact hstack _ (Nat.pred_lt h0)

theorem pcAfterSkip_le {s : State} (c : Bool) (hpc : s.pc.toNat ≤ 0xFFE) : pcAfterSkip c s ≤ 0x1002 := by
  unfold pcAfterSkip
  split <;> omega

/-- The table of 40_fetch_decode.md R94 stays below 0x10FF; the largest entry is Bnnn's, 0xFF + 0xFFF. -/
theorem pcAfter_le {i : Instr} {s : State} (hi : i ≠ .ret) (hpc : s.pc.toNat ≤ 0xFFE) : pcAfter i s ≤ 0x10FE := by
  cases i with
  | ret => exact absurd rfl hi
  | jp nnn | call nnn =>
    have := nnn.isLt
    simp only [pcAfter]
    omega
  | jpV0 nnn =>
    have := nnn.isLt
    have := (s.getV 0).isLt
    simp only [pcAfter]
    omega
  | seImm _ _ | sneImm _ _ | seReg _ _ | sneReg _ _ | skp _ | sknp _ => exact (pcAfterSkip_le _ hpc).trans (by decide)
  | ldVxK _ =>
    simp only [pcAfter]
    split <;> omega
  | cls | ldImm _ _ | addImm _ _ | rnd _ _ | ldVxDT _ | ldDTVx _ | ldSTVx _ | ldReg _ _ | orReg _ _ | andReg _ _
  | xorReg _ _ | addReg _ _ | subReg _ _ | shr _ _ | subn _ _ | shl _ _ | ldI _ | addI _ | ldF _ | ldB _ | storeRegs _
  | loadRegs _ | drw _ _ _ =>
    exact (Nat.add_le_add_right hpc 2).trans (by decide)

theorem exec_next_pc_le {i : Instr} {s t : State} (hs : StackInv s) (hpc : s.pc.toNat ≤ 0xFFE) (h : exec i s = .next t) :
    t.pc.toNat ≤ 0x10FE := by
  by_cases hret : i = .ret
  · subst hret
    obtain ⟨h0, -, rfl⟩ := execRet_next h
    exact (top_toNat_le hs h0).trans (by decide)
  · rw [exec_next_pc_toNat hpc h]
    exact pcAfter_le hret hpc

/-! ### The invariant -/

theorem inv_iff (s : State) : Inv s ↔ s.memory.wf = true ∧ StackInv s ∧ s.pc.toNat ≤ 0x10FE :=
  ⟨fun ⟨hm, hsp, hst, hpc⟩ => ⟨hm, ⟨hsp, hst⟩, hpc⟩, fun ⟨hm, ⟨hsp, hst⟩, hpc⟩ => ⟨hm, hsp, hst, hpc⟩⟩

/-- The invariant reads memory, the stack and pc alone. -/
theorem Inv.congr {s t : State} (h : Inv s) (hm : t.memory = s.memory) (hsp : t.sp = s.sp) (hst : t.stack = s.stack)
    (hpc : t.pc = s.pc) : Inv t := by
  obtain ⟨h1, h2, h3, h4⟩ := h
  exact ⟨hm ▸ h1, hsp ▸ h2, by rw [hsp, hst]; exact h3, hpc ▸ h4⟩

/-- A cycle that completes started at a pc that admits a fetch, and keeps the invariant. -/
theorem cycle_next_inv {s t : State} (hs : Inv s) (h : cycle s = .next t) : Inv t := by
  obtain ⟨-, i, hfetch, -, -, hi⟩ := cycle_next h
  obtain ⟨hwf, hstack, -⟩ := (inv_iff s).1 hs
  have hpc : s.pc.toNat ≤ 0xFFE := by omega
  exact (inv_iff t).2 ⟨exec_next_memory_wf hwf hi, exec_next_stackInv hstack hpc hi, exec_next_pc_le hstack hpc hi⟩

theorem Inv.environment {s : State} (h : Inv s) : Inv s.environment :=
  h.congr rfl rfl rfl rfl

theorem Inv.present {s : State} (h : Inv s) (keys : Word) (rnd : Byte) : Inv (s.present keys rnd) :=
  h.congr rfl rfl rfl rfl

theorem inv_reset : Inv State.reset := by
  refine ⟨rfl, by decide, fun k hk => absurd hk (Nat.not_lt_zero _), by decide⟩

/-- Settles O16: memory lists nothing, the stack is empty and pc is 0x200. -/
theorem resetMeetsInvariant : Obligations.ResetMeetsInvariant :=
  inv_reset

/-- Settles O17: the environment touches nothing the invariant reads, and a cycle keeps it. -/
theorem stepKeepsInvariant : Obligations.StepKeepsInvariant := by
  intro s t hs h
  exact cycle_next_inv hs.environment h

theorem Inv.load {s : State} (h : Inv s) (bytes : List Byte) : Inv (perform (.load bytes) s).1 := by
  rcases Nat.lt_or_ge 3584 bytes.length with hlt | hle
  · rw [perform_load_of_lt s hlt]
    exact h
  · obtain ⟨hwf, hstack, hpc⟩ := (inv_iff s).1 h
    rw [perform_load_of_le s hle]
    exact (inv_iff _).2 ⟨Memory.writeBytes_wf hwf (by omega), hstack, hpc⟩

theorem Inv.step {s : State} (h : Inv s) (keys : Word) (rnd : Byte) : Inv (perform (.step keys rnd) s).1 := by
  obtain ⟨t, hc, e⟩ | ⟨f, -, e⟩ | ⟨r, -, e⟩ := perform_step_cases s keys rnd
  · rw [e]
    exact cycle_next_inv (h.present keys rnd) hc
  · rw [e]
    exact h.present keys rnd
  · rw [e]
    exact h.present keys rnd

theorem Inv.perform {s : State} (h : Inv s) (op : Op) : Inv (perform op s).1 := by
  cases op with
  | reset => exact inv_reset.congr rfl rfl rfl rfl
  | load bytes => exact h.load bytes
  | step keys rnd => exact h.step keys rnd
  | tick => exact h.congr rfl rfl rfl rfl
  | takeDrawFlag => exact h.congr rfl rfl rfl rfl

/-- Settles O18, operation by operation. -/
theorem operationsKeepInvariant : Obligations.OperationsKeepInvariant := by
  intro op s h
  exact h.perform op

theorem Reachable.inv {s : State} (h : Reachable s) : Inv s := by
  induction h with
  | reset => exact inv_reset
  | perform op s _ ih => exact ih.perform op

/-- With sp at most 16 every fault is one of the spec's six kinds. -/
theorem FaultsWith.code_isSome {i : Instr} {s : State} {f : Fault} (h : FaultsWith i s f) (hsp : s.sp.toNat ≤ 16) :
    f.code.isSome = true := by
  cases h with
  | callBeyond nnn hgt => omega
  | retBeyond hgt => omega
  | _ => rfl

theorem cycle_fault_code_isSome {s : State} {f : Fault} (hsp : s.sp.toNat ≤ 16) (h : cycle s = .fault f) :
    f.code.isSome = true := by
  obtain ⟨-, e⟩ | ⟨w, -, -, e⟩ | ⟨w, i, -, -, e⟩ := cycle_cases s
  · cases e.symm.trans h
    rfl
  · cases e.symm.trans h
    rfl
  · exact (exec_eq_fault_iff.1 (e.symm.trans h)).code_isSome hsp

/-- Settles O19: the invariant is an induction over the operations, and it bounds sp. -/
theorem reachableStatesMeetInvariantAndSpecFaults : Obligations.ReachableStatesMeetInvariantAndSpecFaults := by
  intro s h
  exact ⟨h.inv, fun f hf => cycle_fault_code_isSome h.inv.sp_le hf⟩

end Sys2Proof.Machine

/-! SUPPORT. The step (40_fetch_decode.md R90 to R93, 60_exceptions.md R216 to R225, 70_reset_and_hazards.md R255): the
fetched word byte by byte, the environment's turn, and the jump to itself. -/

namespace Sys2Proof.Machine

/-! ### The fetch -/

theorem fetch_of_le {s : State} (h : s.pc.toNat ≤ 0xFFE) :
    fetch s = .ok (s.memory.read s.pc.toNat ++ s.memory.read (s.pc.toNat + 1)) :=
  (fetch_ok_iff s _).2 ⟨by omega, rfl⟩

theorem fetch_environment (s : State) : fetch s.environment = fetch s :=
  fetch_congr rfl rfl

theorem fetch_present (s : State) (keys : Word) (rnd : Byte) : fetch (s.present keys rnd) = fetch s :=
  fetch_congr rfl rfl

/-- Settles O8: the two bytes as a number, high byte first, and the fetch fault beyond them. -/
theorem fetchReadsTwoBytesOrFaults : Obligations.FetchReadsTwoBytesOrFaults := by
  intro s
  exact ⟨fun h => ⟨_, fetch_of_le h, wordOfBytes_toNat _ _⟩, step_of_pc_gt⟩

/-- Settles O6: the environment leaves pc and memory alone, so the cycle fetches what stood there before it. -/
theorem stepRunsTheDecodedInstruction : Obligations.StepRunsTheDecodedInstruction := by
  intro s i hpc hd
  exact cycle_of_some ((fetch_environment s).trans (fetch_of_le hpc)) hd

/-- Settles O9: as O6, with a word that decodes to nothing. -/
theorem unknownWordFaults : Obligations.UnknownWordFaults := by
  intro s hpc hd
  exact cycle_of_none ((fetch_environment s).trans (fetch_of_le hpc)) hd

/-! ### The environment's turn -/

/-- What the environment's turn leaves alone; its inputs and its own fields are not components. -/
theorem agree_environment {c : Component} (s : State) (hc : c ∉ [Component.delayTimer, .soundTimer, .drawFlag]) :
    Agree c s s.environment := by
  cases c with
  | delayTimer | soundTimer | drawFlag => exact absurd (by decide) hc
  | memory | V | stack => exact fun _ => rfl
  | framebuffer => exact fun _ _ => rfl
  | I | pc | sp => rfl

theorem environment_of_pending_cons {s : State} {e : EnvEntry} {es : List EnvEntry} (h : s.pending = e :: es) :
    s.nextEntry = e ∧ s.environment.pending = es ∧ s.environment.drawn = s.drawn :=
  ⟨s.nextEntry_cons e es h, by rw [State.environment_pending, h, List.tail_cons],
    by rw [State.environment_drawn, h]; rfl⟩

theorem environment_of_pending_nil {s : State} (h : s.pending = []) :
    s.nextEntry = freeEntry s.drawn ∧ s.environment.pending = [] ∧ s.environment.drawn = s.drawn + 1 :=
  ⟨s.nextEntry_nil h, by rw [State.environment_pending, h, List.tail_nil], by rw [State.environment_drawn, h]; rfl⟩

/-- Settles O7, by the fields of an applied entry and the two cases of the list. -/
theorem environmentActsBeforeTheStep : Obligations.EnvironmentActsBeforeTheStep := by
  intro s
  exact ⟨⟨timerAfter_toNat _ _, timerAfter_toNat _ _, rfl, rfl, rfl⟩, fun c hc => agree_environment s hc,
    fun e es h => environment_of_pending_cons h, fun h => environment_of_pending_nil h⟩

/-! ### The jump to itself -/

theorem EndsInSelfJump.environment {s : State} (h : EndsInSelfJump s) : EndsInSelfJump s.environment := by
  obtain ⟨nnn, hf, hpc⟩ := h
  exact ⟨nnn, (fetch_environment s).trans hf, hpc⟩

theorem State.setPc_self (s : State) : s.setPc s.pc = s := rfl

theorem cycle_of_endsInSelfJump {s : State} (h : EndsInSelfJump s) : cycle s = .next s := by
  obtain ⟨nnn, hf, hpc⟩ := h
  calc cycle s
    _ = .next (s.setPc (addrOfImm nnn)) := cycle_of_some hf (decodeWord_encode (.jp nnn))
    _ = .next s := by rw [hpc, State.setPc_self]

/-- Settles O58: the jump writes the pc that stands there, before and after the environment's turn. -/
theorem selfJumpSpins : Obligations.SelfJumpSpins := by
  intro s h
  exact ⟨cycle_of_endsInSelfJump h, s.environment, cycle_of_endsInSelfJump h.environment, h.environment, rfl⟩

end Sys2Proof.Machine

/-! SUPPORT. The rest of control transfer (41_flow.md R101 to R103, 42_skip.md R113, R114): the return, the return right
after a call, the computed jump and the skips on registers. -/

namespace Sys2Proof.Machine

/-- Settles O22: the slot a return reads is the one below sp, and the slots stay. -/
theorem returnPopsPc : Obligations.ReturnPopsPc := by
  intro s
  refine ⟨fun h => execRet_of_zero h, fun k hk => ?_⟩
  have h0 : s.sp.toNat ≠ 0 := by omega
  have hsp : (s.sp - 1).toNat = k.val := by
    rw [sp_pred_toNat h0, hk, Nat.add_sub_cancel]
  exact ⟨_, execRet_of_le h0 (by omega), hsp, top_eq k hk, onlyChanges_drop_setPc s _⟩

/-- Settles O23: both check sp before they use it. -/
theorem stackPointerBeyondTheStackStops : Obligations.StackPointerBeyondTheStackStops := by
  intro nnn s h
  exact ⟨execCall_of_gt nnn h, execRet_of_gt h⟩

/-- A pop undoes the stack pointer of a push. -/
theorem push_drop_sp (s : State) (a b : Word) : ((s.push a).setPc b).drop.sp = s.sp :=
  BitVec.add_sub_cancel s.sp 1

/-- Push, jump, pop and jump back leave sp as it was: only pc and one slot differ. -/
theorem onlyChanges_push_drop (s : State) (a b c : Word) :
    OnlyChanges [.pc, .stack] s (((s.push a).setPc b).drop.setPc c) := by
  refine ⟨fun k hk => ?_, rfl, rfl, rfl, rfl⟩
  cases k with
  | pc | stack => exact absurd (by decide) hk
  | sp => exact push_drop_sp s a b
  | memory | V => exact fun _ => rfl
  | framebuffer => exact fun _ _ => rfl
  | I | delayTimer | soundTimer | drawFlag => rfl

/-- Settles O24: the return pops what the call pushed. -/
theorem returnAfterCallComesBack : Obligations.ReturnAfterCallComesBack := by
  intro nnn s t h
  obtain ⟨hsp, rfl⟩ := execCall_next h
  exact ⟨_, execRet_push_setPc _ _ hsp, rfl, onlyChanges_push_drop s _ _ _⟩

/-- Settles O25: the sum of a byte and twelve bits fits in sixteen. -/
theorem computedJumpAddsV0 : Obligations.ComputedJumpAddsV0 := by
  intro nnn s
  exact ⟨_, rfl, wordOfByte_add_addrOfImm_toNat (s.getV 0) nnn, onlyChanges_setPc s _⟩

/-- Settles O27: both are one skip, on the two Boolean comparisons of Vx with Vy. -/
theorem skipsOnRegisters : Obligations.SkipsOnRegisters := by
  intro x y s
  exact ⟨⟨_, rfl, State.skipIf_beq_pc s _ _, onlyChanges_skipIf s _⟩,
    ⟨_, rfl, State.skipIf_bne_pc s _ _, onlyChanges_skipIf s _⟩⟩

end Sys2Proof.Machine

/-! SUPPORT. The flag writers and the random byte (44_alu.md R131, R136 to R143; 43_immediate.md R122): what a result and
its flag leave in the registers, and the results as numbers. -/

namespace Sys2Proof.Machine

/-! ### A result, its flag, then the advance -/

theorem onlyChanges_setResult_advance (s : State) (x : RegNum) (result flag : Byte) :
    OnlyChanges [.V, .pc] s (s.setResult x result flag).advance :=
  (onlyChanges_setResult s x result flag).trans_advance.mono (by decide)

/-- VF holds the flag, whatever x is. -/
theorem setResult_advance_getV_flagReg (s : State) (x : RegNum) (result flag : Byte) :
    (s.setResult x result flag).advance.getV 15 = flag :=
  State.setResult_getV_flagReg s x result flag

/-- With x not 0xF the result stands in Vx. -/
theorem setResult_advance_getV_dest {x : RegNum} (s : State) (result flag : Byte) (hx : x ≠ 15) :
    (s.setResult x result flag).advance.getV x = result := by
  rw [State.advance_getV, State.setResult_getV, if_neg (show x ≠ flagReg from hx), if_pos rfl]

/-- What a flag writer of group 8 does beside its result and flag. -/
theorem setResult_advance_frame (s : State) (x : RegNum) (result flag : Byte) :
    (∀ r, r ≠ x → r ≠ 15 → (s.setResult x result flag).advance.getV r = s.getV r) ∧
      (s.setResult x result flag).advance.pc = s.pc + 2 ∧
      OnlyChanges [.V, .pc] s (s.setResult x result flag).advance :=
  ⟨fun _ hx hf => State.setResult_getV_of_ne result flag hx hf, rfl, onlyChanges_setResult_advance s x result flag⟩

/-- A flag writer of group 8, its flag and result named as numbers. -/
theorem setResult_advance_spec {x : RegNum} (s : State) {result flag : Byte} {f : Nat} {P : Byte → Prop}
    (hf : flag.toNat = f) (hres : P result) :
    ((s.setResult x result flag).advance.getV 15).toNat = f ∧
      (x ≠ 15 → P ((s.setResult x result flag).advance.getV x)) ∧
      (∀ r, r ≠ x → r ≠ 15 → (s.setResult x result flag).advance.getV r = s.getV r) ∧
      (s.setResult x result flag).advance.pc = s.pc + 2 ∧
      OnlyChanges [.V, .pc] s (s.setResult x result flag).advance := by
  refine ⟨by rw [setResult_advance_getV_flagReg, hf], fun hx => ?_, setResult_advance_frame s x result flag⟩
  rwa [setResult_advance_getV_dest s result flag hx]

/-! ### The results as numbers -/

theorem sub_toNat_int (a b : Byte) : ((a - b).toNat : Int) = ((a.toNat : Int) - b.toNat) % 256 := by
  have := a.isLt
  have := b.isLt
  rw [BitVec.toNat_sub]
  omega

theorem ushiftRight_one_toNat (a : Byte) : (a >>> 1).toNat = a.toNat / 2 := by
  rw [BitVec.toNat_ushiftRight, Nat.shiftRight_eq_div_pow, Nat.pow_one]

theorem shiftLeft_one_toNat (a : Byte) : (a <<< 1).toNat = 2 * a.toNat % 256 := by
  rw [BitVec.toNat_shiftLeft, Nat.shiftLeft_eq, Nat.pow_one, Nat.mul_comm]

/-! ### The obligations -/

/-- Settles O30: the sum, then the carry. -/
theorem addSetsCarry : Obligations.AddSetsCarry := by
  intro x y s
  exact ⟨_, rfl, setResult_advance_spec s (P := fun b => b.toNat = _) (carryFlag_toNat _ _) (BitVec.toNat_add _ _)⟩

/-- Settles O31: the difference, then not-borrow, once each way round. -/
theorem subtractionsSetNotBorrow : Obligations.SubtractionsSetNotBorrow := by
  intro x y s
  exact ⟨⟨_, rfl, setResult_advance_spec s (P := fun b => (b.toNat : Int) = _) (notBorrowFlag_toNat _ _)
      (sub_toNat_int _ _)⟩,
    ⟨_, rfl, setResult_advance_spec s (P := fun b => (b.toNat : Int) = _) (notBorrowFlag_toNat _ _)
      (sub_toNat_int _ _)⟩⟩

/-- Settles O32: the shifted Vx, then the bit it dropped. -/
theorem shiftsDropOneBitIntoVF : Obligations.ShiftsDropOneBitIntoVF := by
  intro x y s
  exact ⟨⟨_, rfl, setResult_advance_spec s (P := fun b => b.toNat = _) (lowBitFlag_toNat _) (ushiftRight_one_toNat _)⟩,
    ⟨_, rfl, setResult_advance_spec s (P := fun b => b.toNat = _) (highBitFlag_toNat _) (shiftLeft_one_toNat _)⟩⟩

/-- Settles O33: each identity joins the result and the flag that O30 to O32 give as numbers. -/
theorem arithmeticIdentities : Obligations.ArithmeticIdentities := by
  intro x y s t hx
  have ha := (s.getV x).isLt
  have hb := (s.getV y).isLt
  refine ⟨fun h => ?_, fun h => ?_, fun h => ?_, fun h => ?_, fun h => ?_⟩
  · obtain ⟨u, hu, hflag, hres, -⟩ := addSetsCarry x y s
    cases hu.symm.trans h
    rw [hflag, hres hx]
    split <;> omega
  · obtain ⟨⟨u, hu, hflag, hres, -⟩, -⟩ := subtractionsSetNotBorrow x y s
    cases hu.symm.trans h
    rw [hflag, hres hx]
    split <;> omega
  · obtain ⟨-, u, hu, hflag, hres, -⟩ := subtractionsSetNotBorrow x y s
    cases hu.symm.trans h
    rw [hflag, hres hx]
    split <;> omega
  · obtain ⟨⟨u, hu, hflag, hres, -⟩, -⟩ := shiftsDropOneBitIntoVF x y s
    cases hu.symm.trans h
    rw [hflag, hres hx]
    omega
  · obtain ⟨-, u, hu, hflag, hres, -⟩ := shiftsDropOneBitIntoVF x y s
    cases hu.symm.trans h
    rw [hflag, hres hx]
    split <;> omega

theorem and_toNat_le_right (a b : Byte) : (a &&& b).toNat ≤ b.toNat := by
  rw [BitVec.toNat_and]
  exact Nat.and_le_right

/-- Settles O34: one write of Vx with a bitwise AND. -/
theorem randomIsTheInputMasked : Obligations.RandomIsTheInputMasked := by
  intro x nn s
  refine ⟨_, rfl, fun k => (getLsbD_setV_advance s x _ k).trans BitVec.getLsbD_and, ?_, setV_advance_frame s x _⟩
  rw [State.advance_getV, State.setV_getV_same]
  exact and_toNat_le_right s.rnd nn

end Sys2Proof.Machine

/-! SUPPORT. The glyph address and the stores and loads at I (45_index_memory.md R152 to R156; 20_memory.md R58, R63): the
bytes of the decimal digits, and the frames of a store and of a load. -/

namespace Sys2Proof.Machine

/-! ### The glyph address -/

theorem glyphAddr_toNat (v : Byte) : (glyphAddr v).toNat = 5 * v.toNat := by
  have := v.isLt
  simp only [glyphAddr, BitVec.toNat_ofNat]
  omega

/-- Settles O36: five times a byte fits in sixteen bits. -/
theorem glyphAddressIsFiveTimesVx : Obligations.GlyphAddressIsFiveTimesVx := by
  intro x s
  exact ⟨_, rfl, glyphAddr_toNat _, rfl, onlyChanges_setI_advance s _⟩

/-! ### The decimal digits -/

/-- A byte inside a block that lies in memory reads as the block's. -/
theorem Memory.read_writeBytes_of_getElem? {m : Memory} {a i : Nat} {bs : List Byte} {b : Byte} (hwf : m.wf = true)
    (ha : a + bs.length ≤ 4096) (hb : bs[i]? = some b) : (m.writeBytes a bs).read (a + i) = b := by
  obtain ⟨hi, -⟩ := List.getElem?_eq_some_iff.1 hb
  exact Option.some.inj ((Memory.read_writeBytes_getElem? hwf ha hi).trans hb)

theorem ofNat_toNat_of_lt {n : Nat} (h : n < 256) : (BitVec.ofNat 8 n).toNat = n := by
  rw [BitVec.toNat_ofNat, Nat.mod_eq_of_lt h]

theorem onlyChanges_setMemory_advance (s : State) (m : Memory) :
    OnlyChanges [.memory, .pc] s (s.setMemory m).advance :=
  (onlyChanges_setMemory s m).trans_advance.mono (by decide)

/-- Settles O37: after the bounds check the three digits are one block written at I, each digit a number below 10. -/
theorem bcdStoresThreeDigits : Obligations.BcdStoresThreeDigits := by
  intro x s hwf
  refine ⟨fun h => execLdB_of_gt x (by omega), fun h => ⟨_, execLdB_of_le x (by omega), ?_⟩⟩
  have hblock : s.I.toNat + (bcdDigits (s.getV x)).length ≤ 4096 := Nat.succ_le_succ h
  have hx := (s.getV x).isLt
  have digit : ∀ {i n : Nat}, (bcdDigits (s.getV x))[i]? = some (BitVec.ofNat 8 n) → n < 256 →
      ((s.memory.writeBytes s.I.toNat (bcdDigits (s.getV x))).read (s.I.toNat + i)).toNat = n := fun hi hn => by
    rw [Memory.read_writeBytes_of_getElem? hwf hblock hi, ofNat_toNat_of_lt hn]
  exact ⟨digit (i := 0) rfl (by omega), digit (i := 1) rfl (by omega), digit (i := 2) rfl (by omega),
    fun a ha => Memory.read_writeBytes_of_not_mem hwf hblock ha, rfl, onlyChanges_setMemory_advance s _⟩

/-! ### The blocks of registers -/

/-- Settles O38: after the bounds check one block is written at I, then I is moved past it. -/
theorem storeRegistersFromIUpward : Obligations.StoreRegistersFromIUpward := by
  intro x s hwf
  refine ⟨fun h => execStoreRegs_of_gt x (by omega), fun h => ?_⟩
  have hle : s.I.toNat + (x.val + 1) ≤ 4096 := by omega
  exact ⟨_, execStoreRegs_of_le x hle, fun r hr => read_writeBytes_regsUpTo hwf hle hr,
    fun a ha => read_writeBytes_regsUpTo_of_not_mem hwf hle ha, blockEnd_toNat hle, rfl,
    (onlyChanges_setMemory_setI s _ _).trans_advance.mono (by decide)⟩

/-- Settles O39: after the bounds check the registers up to x are read from the block at I, then I is moved past it. -/
theorem loadRegistersFromIUpward : Obligations.LoadRegistersFromIUpward := by
  intro x s
  refine ⟨fun h => execLoadRegs_of_gt x (by omega), fun h => ?_⟩
  have hle : s.I.toNat + (x.val + 1) ≤ 4096 := by omega
  refine ⟨_, execLoadRegs_of_le x hle, fun r => ?_, blockEnd_toNat hle, ?_,
    (onlyChanges_setAllV_setI s _ _).trans_advance.mono (by decide)⟩
  · rw [State.advance_getV, State.setI_getV, State.setAllV_getV, loadedRegs_getElem]
  · rw [State.advance_pc, State.setI_pc, State.setAllV_pc]

/-- Settles O41: pc + 2 is where the block begins, and the fetch from there reads the block's first two bytes. -/
theorem storedBytesAreFetchedNext : Obligations.StoredBytesAreFetchedNext := by
  intro x s t hwf hx hI hpc h
  obtain ⟨hle, -⟩ := execStoreRegs_next h
  obtain ⟨u, hu, hread, -, -, hupc, -⟩ := (storeRegistersFromIUpward x s hwf).2 (by omega)
  cases hu.symm.trans h
  have htpc : t.pc = s.I := hupc.trans hI.symm
  have hfetch := fetch_of_le (s := t) (by rw [htpc]; omega)
  have h0 : t.memory.read s.I.toNat = s.getV 0 := hread 0 (Fin.zero_le x)
  have h1 : t.memory.read (s.I.toNat + 1) = s.getV 1 := hread 1 hx
  rw [hfetch, htpc, h0, h1]

end Sys2Proof.Machine

/-! SUPPORT. The draw (46_display.md R171, R173, R174; 60_exceptions.md R208): its pixels, its flag and its frame, and the
same draw once more, whose sprite is the same because a draw writes neither memory nor I. -/

namespace Sys2Proof.Machine

/-! ### One draw -/

/-- The state a draw that completes leaves (46_display.md R171). -/
def afterDraw (x y : RegNum) (n : BitVec 4) (s : State) : State :=
  ((s.setScreen (s.framebuffer.toggleAll (drawPositions x y n s))).setV flagReg
    (collisionFlag s.framebuffer (drawPositions x y n s))).advance

/-- The sprite lies in memory and every position it sets on the screen. -/
def DrawFits (x y : RegNum) (n : BitVec 4) (s : State) : Prop :=
  (n.toNat = 0 ∨ s.I.toNat + n.toNat ≤ 4096) ∧ ∀ r c, SpriteSets x y n s r c → OnScreen r c

theorem execDrw_of_fits {x y : RegNum} {n : BitVec 4} {s : State} (h : DrawFits x y n s) :
    execDrw x y n s = .next (afterDraw x y n s) :=
  execDrw_of_ok h.1 fun ⟨r, c, hset, hoff⟩ => by
    have := h.2 r c hset
    omega

theorem execDrw_eq_next_iff {x y : RegNum} {n : BitVec 4} {s t : State} :
    execDrw x y n s = .next t ↔ DrawFits x y n s ∧ t = afterDraw x y n s := by
  constructor
  · intro h
    obtain ⟨hmem, hscreen, ht⟩ := execDrw_next h
    exact ⟨⟨hmem, fun r c hset => by have := hscreen r c hset; omega⟩, ht⟩
  · rintro ⟨h, rfl⟩
    exact execDrw_of_fits h

theorem onlyChanges_afterDraw (x y : RegNum) (n : BitVec 4) (s : State) :
    OnlyChanges [.pc, .V, .framebuffer, .drawFlag] s (afterDraw x y n s) :=
  (onlyChanges_setScreen_setV s _ _ _).trans_advance

theorem afterDraw_getV_flagReg (x y : RegNum) (n : BitVec 4) (s : State) :
    (afterDraw x y n s).getV 15 = collisionFlag s.framebuffer (drawPositions x y n s) :=
  State.setV_getV_same _ flagReg _

theorem afterDraw_getV_of_ne (x y : RegNum) (n : BitVec 4) (s : State) {r : RegNum} (h : r ≠ 15) :
    (afterDraw x y n s).getV r = s.getV r :=
  State.setV_getV_ne _ _ h

/-- A pixel of the screen is inverted exactly if the sprite sets it. -/
theorem pixel_draw_iff (x y : RegNum) (n : BitVec 4) (s : State) (fb : Framebuffer) {r c : Nat} (h : OnScreen r c) :
    (fb.toggleAll (drawPositions x y n s)).pixel r c = true ↔ ¬ (fb.pixel r c = true ↔ SpriteSets x y n s r c) := by
  by_cases hset : SpriteSets x y n s r c
  · simp [pixel_draw_of x y n s fb h hset, hset]
  · simp [pixel_draw_of_not x y n s fb hset, hset]

theorem collisionFlag_eq_zero (x y : RegNum) (n : BitVec 4) (s : State) (fb : Framebuffer)
    (h : ∀ r c, SpriteSets x y n s r c → fb.pixel r c = false) : collisionFlag fb (drawPositions x y n s) = 0 := by
  refine (flagByte_eq_zero_or_one _).resolve_right fun h1 => ?_
  obtain ⟨r, c, hset, hpix⟩ := (collisionFlag_eq_one x y n s fb).1 h1
  rw [h r c hset] at hpix
  cases hpix

/-- Settles O43: the pixels by `pixel_draw_iff`, the flag by the collisions. -/
theorem drawInvertsTheSpritePositions : Obligations.DrawInvertsTheSpritePositions := by
  intro x y n s hmem hscreen
  have hfits : DrawFits x y n s := ⟨by omega, fun r c hset => by have := hscreen r c hset; omega⟩
  refine ⟨_, execDrw_of_fits hfits, fun r c hr hc => pixel_draw_iff x y n s s.framebuffer (by omega), fun h => ?_,
    fun h => ?_, fun r hr => afterDraw_getV_of_ne x y n s hr, rfl, rfl, (onlyChanges_afterDraw x y n s).mono (by decide)⟩
  · rw [afterDraw_getV_flagReg]
    exact (collisionFlag_eq_one x y n s s.framebuffer).2 h
  · rw [afterDraw_getV_flagReg]
    exact collisionFlag_eq_zero x y n s s.framebuffer h

/-- Settles O44: the memory check comes first, then the screen check. -/
theorem drawOutOfBoundsFaults : Obligations.DrawOutOfBoundsFaults := by
  intro x y n s
  exact ⟨fun hn hI => execDrw_of_memory x y (by omega) (by omega),
    fun hmem hoff => execDrw_of_screen (by omega) hoff⟩

/-! ### The same draw twice -/

/-- The positions a sprite sets are read from memory, I and the two coordinates alone. -/
theorem drawPositions_congr {x y : RegNum} {n : BitVec 4} {s t : State} (hm : t.memory = s.memory) (hI : t.I = s.I)
    (hx : t.getV x = s.getV x) (hy : t.getV y = s.getV y) : drawPositions x y n t = drawPositions x y n s := by
  rw [drawPositions, drawPositions, hm, hI, hx, hy]

/-- Inverting the same positions twice restores the screen (46_display.md R174). -/
theorem toggleAll_toggleAll (x y : RegNum) (n : BitVec 4) (s : State) (fb : Framebuffer) :
    (fb.toggleAll (drawPositions x y n s)).toggleAll (drawPositions x y n s) = fb := by
  refine Framebuffer.ext_pixel fun r c h => ?_
  by_cases hset : SpriteSets x y n s r c
  · rw [pixel_draw_of x y n s _ h hset, pixel_draw_of x y n s fb h hset, Bool.not_not]
  · rw [pixel_draw_of_not x y n s _ hset, pixel_draw_of_not x y n s fb hset]

/-- After a draw a position of the sprite is set exactly if it was not before. -/
theorem collisionFlag_toggleAll_eq_one (x y : RegNum) (n : BitVec 4) (s : State) (fb : Framebuffer)
    (h : ∀ r c, SpriteSets x y n s r c → OnScreen r c) :
    collisionFlag (fb.toggleAll (drawPositions x y n s)) (drawPositions x y n s) = 1 ↔
      ∃ r c, SpriteSets x y n s r c ∧ fb.pixel r c = false := by
  rw [collisionFlag_eq_one]
  refine exists_congr fun r => exists_congr fun c => and_congr_right fun hset => ?_
  rw [pixel_draw_of x y n s fb (h r c hset) hset, Bool.not_eq_true']

/-- Settles O45: the second draw has the positions of the first. -/
theorem drawTwiceRestoresTheScreen : Obligations.DrawTwiceRestoresTheScreen := by
  intro x y n s t h hx hy
  obtain ⟨⟨hmem, hscreen⟩, rfl⟩ := execDrw_eq_next_iff.1 h
  have hpos : drawPositions x y n (afterDraw x y n s) = drawPositions x y n s := drawPositions_congr rfl rfl hx hy
  have hfits : DrawFits x y n (afterDraw x y n s) :=
    ⟨hmem, fun r c hset => hscreen r c (by rwa [← mem_drawPositions, hpos, mem_drawPositions] at hset)⟩
  refine ⟨_, execDrw_of_fits hfits, ?_, ?_⟩
  · calc (afterDraw x y n (afterDraw x y n s)).framebuffer
      _ = (s.framebuffer.toggleAll (drawPositions x y n s)).toggleAll (drawPositions x y n (afterDraw x y n s)) := rfl
      _ = s.framebuffer := by rw [hpos, toggleAll_toggleAll]
  · rw [afterDraw_getV_flagReg, hpos]
    exact collisionFlag_toggleAll_eq_one x y n s s.framebuffer hscreen

end Sys2Proof.Machine

/-! SUPPORT. The keypad (47_keypad.md R180 to R184): the skips on a key, the lowest pressed key, and which step waits. -/

namespace Sys2Proof.Machine

/-! ### The skips on a key -/

/-- Settles O46: the check of Vx, then one skip on the key's bit or on its complement. -/
theorem keySkipsTestTheSnapshot : Obligations.KeySkipsTestTheSnapshot := by
  intro x s
  refine ⟨fun h => ⟨execSkp_of_gt h, execSknp_of_gt h⟩, fun h =>
    ⟨⟨_, execSkp_of_le h, State.skipIf_pc s _, onlyChanges_skipIf s _⟩,
      ⟨_, execSknp_of_le h, ?_, onlyChanges_skipIf s _⟩⟩⟩
  rw [State.skipIf_pc]
  cases s.keys.getLsbD (s.getV x).toNat <;> rfl

/-! ### The key read -/

/-- Settles O47: the key selected is the lowest pressed, and its number fits in a byte. -/
theorem keyReadTakesTheLowestPressed : Obligations.KeyReadTakesTheLowestPressed := by
  intro x s h
  obtain ⟨k, hk, e⟩ := afterKeyWait_of_ne x h
  obtain ⟨hlt, hpressed, hlowest⟩ := selectKey_lowest hk
  refine ⟨_, k, congrArg Host.Outcome.next e, hlt, hpressed, hlowest, fun r => ?_, rfl, onlyChanges_setV_advance s x _⟩
  rw [State.advance_getV, State.setV_getV, apply_ite BitVec.toNat, ofNat_toNat_of_lt (by omega)]

/-! ### The wait -/

theorem waitsForKey_present_iff (s : State) (keys : Word) (rnd : Byte) :
    (s.present keys rnd).waitsForKey = true ↔ (∃ x, fetch s = .ok (encode (.ldVxK x))) ∧ keys = 0 := by
  rw [State.waitsForKey_iff, fetch_present, State.present_keys]
  refine and_congr_left fun _ => ⟨?_, fun ⟨x, hf⟩ => ⟨_, x, hf, decodeWord_encode _⟩⟩
  rintro ⟨w, x, hf, hd⟩
  exact ⟨x, by rw [hf, encode_of_decodeWord hd]⟩

theorem perform_step_of_waitsForKey {s : State} {keys : Word} {rnd : Byte} (h : (s.present keys rnd).waitsForKey = true) :
    perform (.step keys rnd) s = (s.present keys rnd, .waitingForKey) := by
  simp only [perform, cycle_of_waitsForKey h, h, if_true]

theorem waitsForKey_of_perform_step {s : State} {keys : Word} {rnd : Byte}
    (h : (perform (.step keys rnd) s).2 = .waitingForKey) : (s.present keys rnd).waitsForKey = true := by
  obtain ⟨t, -, e⟩ | ⟨f, -, e⟩ | ⟨r, -, e⟩ := perform_step_cases s keys rnd
  · rw [e] at h
    split at h
    case isTrue hw => exact hw
    case isFalse => cases h
  · rw [e] at h
    cases h
  · rw [e] at h
    cases h

/-- Settles O48: the step answers the wait exactly when the presented state waits. -/
theorem waitingChangesNothing : Obligations.WaitingChangesNothing := by
  intro s keys rnd
  refine ⟨fun x hf h0 => perform_step_of_waitsForKey ((waitsForKey_present_iff s keys rnd).2 ⟨⟨x, hf⟩, h0⟩), fun h => ?_⟩
  exact ((waitsForKey_present_iff s keys rnd).1 (waitsForKey_of_perform_step h)).symm

end Sys2Proof.Machine

/-! SUPPORT. The sound timer, the delay timer over a step, and the reset state (48_timer_instr.md R192, R193; 10_state.md
R36; 70_reset_and_hazards.md R240 to R242). -/

namespace Sys2Proof.Machine

/-! ### The timers -/

theorem onlyChanges_setSound_advance (s : State) (b : Byte) : OnlyChanges [.soundTimer, .pc] s (s.setSound b).advance :=
  (onlyChanges_setSound s b).trans_advance.mono (by decide)

/-- Settles O50: one write of the sound timer, which the level output and the next tick's signals are comparisons of. -/
theorem soundTimerIsWritten : Obligations.SoundTimerIsWritten := by
  intro x s
  exact ⟨_, rfl, rfl, decide_eq_true_iff, rfl, onlyChanges_setSound_advance s _, _, _, rfl, tickOut_tonePlay_iff _,
    tickOut_toneStop_iff _⟩

theorem delayTimer_mem_writes {i : Instr} (h : .delayTimer ∈ writes i) : ∃ x, i = .ldDTVx x := by
  cases i with
  | ldDTVx x => exact ⟨x, rfl⟩
  | _ =>
    simp only [writes] at h
    exact absurd h (by decide)

theorem environment_delayTimer_le (s : State) : s.environment.delayTimer.toNat ≤ s.delayTimer.toNat := by
  rw [State.environment_delayTimer, timerAfter_toNat]
  exact Nat.sub_le _ _

/-- Settles O53: of all instructions Fx15 alone writes the delay timer, and ticks only lower it. -/
theorem delayTimerRisesOnlyByItsLoad : Obligations.DelayTimerRisesOnlyByItsLoad := by
  intro s t h hne
  obtain ⟨w, i, -, hf, hd, hi⟩ := cycle_next h
  have hw : .delayTimer ∉ writes i := fun hmem => by
    obtain ⟨x, rfl⟩ := delayTimer_mem_writes hmem
    rw [fetch_environment, ← encode_of_decodeWord hd] at hf
    exact hne x hf
  have hdelay : t.delayTimer = s.environment.delayTimer := (exec_next_onlyChanges hi).1 .delayTimer hw
  rw [hdelay]
  exact environment_delayTimer_le s

/-! ### The reset state -/

theorem font_length : Config.hw.font.length = 80 := rfl

theorem font_getElem?_eq_read {a : Nat} (h : a < 80) : Config.hw.font[a]? = some (Memory.read [] a) := by
  rw [Memory.read, Memory.unlisted, List.getD_eq_getElem _ _ h, List.getElem?_eq_getElem h]

theorem read_nil_of_le {a : Nat} (h : 80 ≤ a) : Memory.read [] a = 0 := by
  rw [Memory.read, Memory.unlisted, List.getD_eq_default _ _ h]

theorem resetOp_getV (s : State) (r : RegNum) : s.resetOp.getV r = 0 :=
  Vector.getElem_replicate r.isLt

theorem resetOp_stack (s : State) (k : Fin 16) : s.resetOp.stack[k] = 0 :=
  Vector.getElem_replicate k.isLt

/-- Settles O55: every component is the literal of the reset state, and memory, which lists nothing, reads as the font. -/
theorem resetInstallsTheResetState : Obligations.ResetInstallsTheResetState := by
  intro s
  exact ⟨s.resetOp, rfl, font_length, fun a => font_getElem?_eq_read a.isLt, fun a ha _ => read_nil_of_le ha,
    resetOp_getV s, rfl, rfl, resetOp_stack s, rfl, rfl, rfl, Framebuffer.pixel_blank, rfl, ⟨rfl, rfl, rfl, rfl⟩, rfl⟩

/-- Right after reset the fetch reads two zero bytes at 0x200. -/
theorem fetch_resetOp (s : State) : fetch s.resetOp = .ok 0x0000#16 := by
  refine (fetch_ok_iff s.resetOp _).2 ⟨(by decide : 0x200 + 2 ≤ 4096), ?_⟩
  have hmem : s.resetOp.memory = [] := rfl
  have hpc : s.resetOp.pc.toNat = 0x200 := rfl
  rw [Memory.readWord, hmem, hpc, read_nil_of_le (by decide), read_nil_of_le (by decide)]
  rfl

/-- Settles O57: the zero word is no instruction. -/
theorem stepAfterBareResetFaults : Obligations.StepAfterBareResetFaults := by
  intro s
  exact ⟨s.resetOp, rfl, rfl, rfl, cycle_of_none ((fetch_environment _).trans (fetch_resetOp s)) rfl⟩

end Sys2Proof.Machine
